-- ==== Sys2Proof/Word.lean ====
section
/-! DEFINITION. The two word types of the block (`spec/30_encoding.md` R82): bytes, and the 16-bit
two's complement coordinates of the command packets. -/

namespace Sys2Proof

/-- `u8` of the spec (R8, R82): packet bytes, buffer bytes, frame bytes, character codes. -/
abbrev Byte := BitVec 8

/-- `i16` of the spec (R8, R82) as the 16 bits that stand in the packet; its value is `BitVec.toInt`. -/
abbrev Coord := BitVec 16

end Sys2Proof
end

