-- ==== Sys2Proof/Syntax.lean ====
section
/-! DEFINITION. The thirteen commands (`spec/opcode_table.json`, `spec/30_encoding.md` R83, R84) as
syntax: one constructor per row of the opcode table, with the operands the packet carries. -/

namespace Sys2Proof

/-- A decoded command. Operand kinds are R82's: coordinates are the packet's 16 bits, `flag`
operands are the one bit the block reads. -/
inductive Instr where
  /-- SET_PIXEL `x, y, on` (R121). -/
  | setPixel (x y : Coord) (on : Bool)
  /-- GET_PIXEL `x, y` (R123). -/
  | getPixel (x y : Coord)
  /-- CLEAR (R125). -/
  | clear
  /-- INIT `width, height, address, flags`; `externalVcc` is bit 0 of `flags` (R141). -/
  | init (width height address : Byte) (externalVcc : Bool)
  /-- DEINIT (R145). -/
  | deinit
  /-- POWERON (R147). -/
  | powerOn
  /-- POWEROFF (R148). -/
  | powerOff
  /-- CONTRAST `val` (R149). -/
  | contrast (val : Byte)
  /-- INVERT `flag` (R150). -/
  | invert (flag : Bool)
  /-- SHOW (R171). -/
  | showBuf
  /-- DRAW_CHAR `x, y, scale, c` (R181). -/
  | drawChar (x y : Coord) (scale c : Byte)
  /-- DRAW_STRING `x, y, scale, s` (R187); `len` is the length of `s`. -/
  | drawString (x y : Coord) (scale : Byte) (s : List Byte)
  /-- SET_FONT `id` (R191). -/
  | setFont (id : Byte)
deriving DecidableEq, Repr

/-- The opcode map's rows (R83). -/
inductive Opcode where
  | setPixel | getPixel | clear
  | init | deinit | powerOn | powerOff | contrast | invert
  | showBuf
  | drawChar | drawString | setFont
deriving DecidableEq, Repr

/-- Why a packet is illegal whatever the machine's parameters are (R86 a to c). R86 (d), SET_FONT
of a font that is not wired, depends on `NFONTS` and is checked by that command's meaning. -/
inductive IllegalPacket where
  /-- The packet has no byte (R86 a). -/
  | emptyPacket
  /-- Byte 0 is none of the thirteen opcodes (R86 b). -/
  | unknownOpcode (b : Byte)
  /-- The length is not the one the command's format requires (R86 c). -/
  | wrongLength (op : Opcode)
deriving DecidableEq, Repr

end Sys2Proof
end

