-- ==== Sys2Proof/WellFormed.lean ====
section
/-! DEFINITION. Which commands a packet can carry (`spec/30_encoding.md` R82, R87) and which of them a
machine with `nfonts` font tables takes as legal (R86). -/

namespace Sys2Proof

/-- The command has an encoding: a string's length fits its `len` byte (R82, R87). Every other
operand has exactly the width of its field. -/
def Instr.wf : Instr → Bool
  | .drawString _ _ _ s => s.length ≤ 255
  | .setPixel _ _ _ | .getPixel _ _ | .clear | .init _ _ _ _ | .deinit | .powerOn | .powerOff
  | .contrast _ | .invert _ | .showBuf | .drawChar _ _ _ _ | .setFont _ => true

/-- The command's packet is legal on a machine with `nfonts` font tables: R86 (d) beside `wf`. -/
def Instr.legal (nfonts : Nat) (i : Instr) : Bool :=
  i.wf && match i with
    | .setFont id => id.toNat < nfonts
    | _ => true

end Sys2Proof
end

