-- ==== Sys2Proof/Decode.lean ====
section
/-! DEFINITION. Command packets (`spec/30_encoding.md` R80 to R87): the decoder, total on every list of
bytes and rejecting by name, then the encoder, then the packet that a word of the opcode table
stands for. -/

namespace Sys2Proof

/-! ### The opcode map -/

/-- The opcode column of R83. -/
def Opcode.byte : Opcode → Byte
  | .setPixel => 0x01
  | .getPixel => 0x02
  | .clear => 0x03
  | .init => 0x10
  | .deinit => 0x11
  | .powerOn => 0x12
  | .powerOff => 0x13
  | .contrast => 0x14
  | .invert => 0x15
  | .showBuf => 0x20
  | .drawChar => 0x30
  | .drawString => 0x31
  | .setFont => 0x32

/-- The rows of R83, in its order. -/
def opcodeTable : List Opcode :=
  [.setPixel, .getPixel, .clear, .init, .deinit, .powerOn, .powerOff, .contrast, .invert, .showBuf,
   .drawChar, .drawString, .setFont]

/-- The command a packet's byte 0 names, if any (R81, R83). -/
def opcodeOf (b : Byte) : Option Opcode := opcodeTable.find? fun op => op.byte = b

/-- The length column of R83 and R84; for DRAW_STRING the length without its characters. -/
def Opcode.baseLength : Opcode → Nat
  | .clear | .deinit | .powerOn | .powerOff | .showBuf => 1
  | .contrast | .invert | .setFont => 2
  | .getPixel | .init => 5
  | .setPixel => 6
  | .drawChar | .drawString => 7

/-! ### Operand fields (R82) -/

/-- `i16`: the 16 bits of `hi*256 + lo`. -/
def i16OfBytes (lo hi : Byte) : Coord := BitVec.ofNat 16 (hi.toNat * 256 + lo.toNat)

/-- The low byte of an `i16`. -/
def loByte (x : Coord) : Byte := BitVec.ofNat 8 (x.toNat % 256)

/-- The high byte of an `i16`. -/
def hiByte (x : Coord) : Byte := BitVec.ofNat 8 (x.toNat / 256)

/-- `flag`: only bit 0 is read; bits 7 to 1 are ignored by the block (R82, R86). -/
def flagOfByte (b : Byte) : Bool := b.getLsbD 0

/-- A `flag` as it is sent: bits 7 to 1 are 0. -/
def flagByte (f : Bool) : Byte := if f then 1 else 0

/-! ### The decoder -/

/-- The operands behind an opcode byte, by the byte positions of R84; `none` when the length is not
the one the format requires (R86 c, R87). -/
def decodeOperands (op : Opcode) (rest : List Byte) : Option Instr :=
  match op with
  | .setPixel =>
    match rest with
    | [xl, xh, yl, yh, f] => some (.setPixel (i16OfBytes xl xh) (i16OfBytes yl yh) (flagOfByte f))
    | _ => none
  | .getPixel =>
    match rest with
    | [xl, xh, yl, yh] => some (.getPixel (i16OfBytes xl xh) (i16OfBytes yl yh))
    | _ => none
  | .clear => if rest = [] then some .clear else none
  | .init =>
    match rest with
    | [w, h, a, f] => some (.init w h a (flagOfByte f))
    | _ => none
  | .deinit => if rest = [] then some .deinit else none
  | .powerOn => if rest = [] then some .powerOn else none
  | .powerOff => if rest = [] then some .powerOff else none
  | .contrast =>
    match rest with
    | [v] => some (.contrast v)
    | _ => none
  | .invert =>
    match rest with
    | [f] => some (.invert (flagOfByte f))
    | _ => none
  | .showBuf => if rest = [] then some .showBuf else none
  | .drawChar =>
    match rest with
    | [xl, xh, yl, yh, sc, c] => some (.drawChar (i16OfBytes xl xh) (i16OfBytes yl yh) sc c)
    | _ => none
  | .drawString =>
    match rest with
    | xl :: xh :: yl :: yh :: sc :: len :: s =>
      if s.length = len.toNat then
        some (.drawString (i16OfBytes xl xh) (i16OfBytes yl yh) sc s)
      else none
    | _ => none
  | .setFont =>
    match rest with
    | [id] => some (.setFont id)
    | _ => none

/-- The decoder (R81, R86, R87): total, and it names the reason where it rejects. -/
def decode : List Byte → Except IllegalPacket Instr
  | [] => .error .emptyPacket
  | b :: rest =>
    match opcodeOf b with
    | none => .error (.unknownOpcode b)
    | some op =>
      match decodeOperands op rest with
      | none => .error (.wrongLength op)
      | some i => .ok i

/-! ### The encoder -/

/-- The opcode of a command. -/
def Instr.opcode : Instr → Opcode
  | .setPixel _ _ _ => .setPixel
  | .getPixel _ _ => .getPixel
  | .clear => .clear
  | .init _ _ _ _ => .init
  | .deinit => .deinit
  | .powerOn => .powerOn
  | .powerOff => .powerOff
  | .contrast _ => .contrast
  | .invert _ => .invert
  | .showBuf => .showBuf
  | .drawChar _ _ _ _ => .drawChar
  | .drawString _ _ _ _ => .drawString
  | .setFont _ => .setFont

/-- The operand bytes of a command, at the byte positions of R84. -/
def Instr.operandBytes : Instr → List Byte
  | .setPixel x y on => [loByte x, hiByte x, loByte y, hiByte y, flagByte on]
  | .getPixel x y => [loByte x, hiByte x, loByte y, hiByte y]
  | .clear | .deinit | .powerOn | .powerOff | .showBuf => []
  | .init w h a evcc => [w, h, a, flagByte evcc]
  | .contrast v => [v]
  | .invert f => [flagByte f]
  | .drawChar x y sc c => [loByte x, hiByte x, loByte y, hiByte y, sc, c]
  | .drawString x y sc s =>
    [loByte x, hiByte x, loByte y, hiByte y, sc, BitVec.ofNat 8 s.length] ++ s
  | .setFont id => [id]

/-- The packet of a command (R81, R84). -/
def encode (i : Instr) : List Byte := i.opcode.byte :: i.operandBytes

/-! ### Words of the opcode table -/

/-- Byte `k` of a word whose bits count from the least significant bit of packet byte 0. -/
def wordByte (w k : Nat) : Byte := BitVec.ofNat 8 (w >>> (8 * k))

/-- The length of the packet whose bytes stand in `w`, zeros above the bits that are set: the
format's length, with DRAW_STRING's `len` read from byte 6 (R87); 0 for an unknown opcode. -/
def packetLength (w : Nat) : Nat :=
  match opcodeOf (wordByte w 0) with
  | none => 0
  | some op => op.baseLength + if op = .drawString then (wordByte w 6).toNat else 0

/-- The packet of the word `w` of `nbits` bits: the table's bytes, then the zero operand bytes the
format still needs (log 22). -/
def packetOfWord (nbits w : Nat) : List Byte :=
  let v := w % 2 ^ nbits
  (List.range (max ((nbits + 7) / 8) (packetLength v))).map (wordByte v)

/-- What the decoder reads from the word `w` of `nbits` bits. -/
def decodeTableWord (nbits w : Nat) : Option Instr :=
  match decode (packetOfWord nbits w) with
  | .ok i => some i
  | .error _ => none

end Sys2Proof
end

