-- ==== Sys2Proof/Config.lean ====
section
/-! DEFINITION. What is fixed for one machine and open between machines: the parameter record of
`spec/00_scope.md` R7 (buffer capacity, wire bytes, font tables, the cosmetic-error switch), the
defaults the spec decides, and the free values (opaque constants, no body). -/

namespace Sys2Proof

/-- `GLYPH_W`, `GLYPH_H`, `ADVANCE`, `PAGE_ROWS` of R6. -/
def glyphW : Nat := 5
def glyphH : Nat := 7
def advance : Nat := 6
def pageRows : Nat := 8

/-- `COM_PIN_CFG(w, h)` of R96, "a function of the geometry", as plain data: exceptions listed by
geometry, and for every other geometry the default's shape (one byte when `w > 2*h`, else another).
Every function of two bytes has this form (log 4, DESIGN CHOICE). -/
structure ComPinCfg where
  table : List ((Byte × Byte) × Byte)
  wide : Byte
  normal : Byte
deriving DecidableEq, Repr, Inhabited

/-- `WIRE`, the device's bytes (R96), in the order of the spec's table. -/
structure Wire where
  ctrlCmd : Byte
  ctrlData : Byte
  displayOff : Byte
  displayOn : Byte
  clockDiv : Byte
  clockDivVal : Byte
  muxRatio : Byte
  displayOffset : Byte
  startLine0 : Byte
  chargePump : Byte
  cpInternal : Byte
  cpExternal : Byte
  segRemap : Byte
  comDir : Byte
  comPins : Byte
  comPinCfg : ComPinCfg
  contrast : Byte
  contrastDefault : Byte
  vcomDesel : Byte
  vcomLevel : Byte
  entireOnResume : Byte
  normal : Byte
  inverse : Byte
  memMode : Byte
  memModeHorizontal : Byte
  setColAddr : Byte
  setPageAddr : Byte
deriving DecidableEq, Repr, Inhabited

/-- A font table (R100): first and last code covered and five bytes a glyph, column 0 first. -/
structure FontTable where
  first : Byte
  last : Byte
  data : List Byte
deriving DecidableEq, Repr, Inhabited

/-- The length R100 gives `DATA`. -/
def FontTable.size (f : FontTable) : Nat := (f.last.toNat - f.first.toNat + 1) * glyphW

/-- `FIRST <= LAST` and `DATA` of the length R100 gives it. -/
abbrev FontTable.wf (f : FontTable) : Prop :=
  f.first.toNat ≤ f.last.toNat ∧ f.data.length = f.size

/-- The parameters of R7. `NFONTS` is at least 1 by construction: font 0 and the further ones. -/
structure Config where
  bufCap : Nat
  surfaceCosmeticErrors : Bool
  wire : Wire
  font0 : FontTable
  moreFonts : List FontTable
deriving DecidableEq, Repr

/-- `FONTS[0 .. NFONTS-1]`. -/
def Config.fonts (c : Config) : List FontTable := c.font0 :: c.moreFonts

/-- `NFONTS`. -/
def Config.nfonts (c : Config) : Nat := c.moreFonts.length + 1

/-- What the document fixes of the parameters: distinct control bytes (R93), tables of R100's form. -/
abbrev Config.wf (c : Config) : Prop :=
  c.wire.ctrlCmd ≠ c.wire.ctrlData ∧ ∀ f ∈ c.fonts, f.wf

/-- What happens when the block issues a transaction. The transport's answers are `ok` and `fail`
(R61); `hang` is a transport that never answers (U10); the last two are a reset (R230) that
arrives just before the transaction is issued, and one that cuts it. -/
inductive BusEvent where
  | ok
  | fail
  | hang
  | resetBefore
  | resetDuring
deriving DecidableEq, Repr, Inhabited

/-- FREE VALUE: what happens at transaction number `n` where no script says (log 7). -/
opaque Config.freeBusEvent : Nat → BusEvent

/-- FREE VALUES: the wire bytes and the font tables, which the source does not give (N3, N4; log 3). -/
opaque Config.freeWire : Wire
opaque Config.freeFont : FontTable
opaque Config.freeMoreFonts : List FontTable

/-- The same bytes with the data control byte moved off the command control byte where the two
coincide: the one limit the document sets on `WIRE` (R93). -/
def Wire.separated (w : Wire) : Wire :=
  if w.ctrlCmd = w.ctrlData then { w with ctrlData := ~~~ w.ctrlCmd } else w

/-- The same table with its bounds in order and its data cut or filled to R100's length. -/
def FontTable.fitted (f : FontTable) : FontTable :=
  let lo := if f.first.toNat ≤ f.last.toNat then f.first else f.last
  let hi := if f.first.toNat ≤ f.last.toNat then f.last else f.first
  { first := lo, last := hi,
    data := (List.range ((hi.toNat - lo.toNat + 1) * glyphW)).map fun k => f.data.getD k 0 }

/-- The machine's own wire bytes: any that the document allows. -/
def Config.wire0 : Wire := Config.freeWire.separated

/-- The parameters of the machine right after reset: the spec's defaults for `BUF_CAP` and
`SURFACE_COSMETIC_ERRORS` (R7), free values for the rest (log 3). -/
def Config.installed : Config :=
  { bufCap := 8160
    surfaceCosmeticErrors := false
    wire := Config.wire0
    font0 := Config.freeFont.fitted
    moreFonts := Config.freeMoreFonts.map FontTable.fitted }

/-- The default column of R96, `[from general knowledge, not in source]`: used by the tests'
machines only; no definition of the model depends on it (PRESUMED, log 3). -/
def Wire.ssd1306 : Wire :=
  { ctrlCmd := 0x00, ctrlData := 0x40, displayOff := 0xAE, displayOn := 0xAF
    clockDiv := 0xD5, clockDivVal := 0x80, muxRatio := 0xA8, displayOffset := 0xD3
    startLine0 := 0x40, chargePump := 0x8D, cpInternal := 0x14, cpExternal := 0x10
    segRemap := 0xA1, comDir := 0xC8, comPins := 0xDA
    comPinCfg := { table := [], wide := 0x02, normal := 0x12 }
    contrast := 0x81, contrastDefault := 0xFF, vcomDesel := 0xDB, vcomLevel := 0x30
    entireOnResume := 0xA4, normal := 0xA6, inverse := 0xA7
    memMode := 0x20, memModeHorizontal := 0x00, setColAddr := 0x21, setPageAddr := 0x22 }

end Sys2Proof
end

