-- ==== Sys2Proof/Machine/State.lean ====
section
/-! DEFINITION. The state (`spec/10_state.md`): the handle S0 to S7, the parameters the machine is wired
with, the inputs the host and the transport will give, the observations TRACE and the responses, and
the reference sink of the panel (`spec/60_exceptions.md` R219). Plain data throughout. -/

namespace Sys2Proof.Machine

/-- Bytes by index, in one canonical form: indices strictly rising and no listed byte equal to `0x00`,
which is what an unlisted byte reads as (R32, log 5). -/
abbrev Memory := List Host.Cell

/-- Indices strictly rising. -/
abbrev Cells.sorted (m : List Host.Cell) : Prop := m.Pairwise fun c d => c.1 < d.1

/-- The canonical form of a buffer. -/
abbrev Memory.wf (m : Memory) : Prop := Cells.sorted m ∧ ∀ c ∈ m, c.2 ≠ 0

/-- The handle's fields S1 to S7; they exist while `STATE = READY` only (R20 to R26, R31, R231). -/
structure Handle where
  /-- S1 `WIDTH`. -/
  width : Byte
  /-- S2 `HEIGHT`. -/
  height : Byte
  /-- S3 `PAGES`, six bits. -/
  pages : BitVec 6
  /-- S4 `ADDRESS`. -/
  address : Byte
  /-- S5 `EXTERNAL_VCC`. -/
  externalVcc : Bool
  /-- S6 `FONT_SEL`. -/
  fontSel : Byte
  /-- S7 `BUF`. -/
  buf : Memory
deriving DecidableEq, Repr

/-- S0 `STATE` with the fields that exist in it (R21, R231, U15): `UNINIT` has none. -/
inductive Lifecycle where
  | uninit
  | ready (h : Handle)
deriving DecidableEq, Repr

/-- The result codes (R88, R200). -/
inductive Result where
  | ok
  | ioFail
  | invalidGeometry
  | illegalState
  | illegalCommand
deriving DecidableEq, Repr

/-- A response (R89): the result, and the pixel value where the command is GET_PIXEL. -/
structure Response where
  result : Result
  value : Option Byte
deriving DecidableEq, Repr

/-- What a transaction that returned was answered with (R61). -/
inductive BusOutcome where
  | ok
  | fail
deriving DecidableEq, Repr

/-- One entry of `TRACE` (R37). -/
structure Transaction where
  target : Byte
  bytes : List Byte
  outcome : BusOutcome
deriving DecidableEq, Repr

/-- What the outside presents to the idle block (R80, R230): a packet; a reset; or a packet with a reset
that finds its command's work done, or a command without transactions still at it, and the response
not yet given. A reset before or during a transaction is a `BusEvent` (log 9). -/
inductive Input where
  | packet (bytes : List Byte)
  | reset
  | packetThenReset (bytes : List Byte)
deriving DecidableEq, Repr

/-- A window of the panel's memory (R219): a column range and a page range, both inclusive. -/
structure Window where
  colStart : Nat
  colEnd : Nat
  pageStart : Nat
  pageEnd : Nat
deriving DecidableEq, Repr

/-- The panel as the reference sink holds it (R219) with the settings R36 names. `none`, and a
`DEV` byte not listed in `dev`, mean that no value is known (R36, U1, U3, U13). -/
structure Panel where
  /-- The bus target whose panel the other fields describe (log 19). -/
  target : Option Byte
  /-- The known bytes of `DEV[p][x]`, at key `p*256 + x`, keys rising. -/
  dev : List Host.Cell
  window : Option Window
  /-- The cursor: a page and a column. -/
  cursor : Option (Nat × Nat)
  power : Option Bool
  inverted : Option Bool
  contrast : Option Byte
  addressingMode : Option Byte
  clockDivide : Option Byte
  muxRatio : Option Byte
  displayOffset : Option Byte
  startLine : Option Byte
  chargePump : Option Byte
  segRemap : Option Byte
  comDirection : Option Byte
  comPins : Option Byte
  vcomLevel : Option Byte
  entireOn : Option Bool
deriving DecidableEq, Repr

/-- A panel of which nothing is known. -/
def Panel.unknown : Panel :=
  { target := none, dev := [], window := none, cursor := none, power := none, inverted := none
    contrast := none, addressingMode := none, clockDivide := none, muxRatio := none
    displayOffset := none, startLine := none, chargePump := none, segRemap := none
    comDirection := none, comPins := none, vcomLevel := none, entireOn := none }

/-- The whole state. `cfg` is fixed for one machine (R7, log 2); `life` is the block's own state;
`trace`, `responses` and `panel` are observations no command reads (R36, R37); `inputs`, `events`
and `busIndex` say what comes from outside next (R3, R61, logs 7 and 10). -/
structure State where
  cfg : Config
  /-- S0 to S7. -/
  life : Lifecycle
  /-- `TRACE` (R37), oldest first. -/
  trace : List Transaction
  /-- Every response delivered so far, oldest first (log 11). -/
  responses : List Response
  /-- What the host will present, next first. -/
  inputs : List Input
  /-- What the transport will do, next first; after the last entry the free value says. -/
  events : List BusEvent
  /-- How many transactions have been asked for; the free value's argument (log 7). -/
  busIndex : Nat
  panel : Panel
deriving DecidableEq, Repr

/-- Why the machine stops. -/
inductive Fault where
  /-- The transport never answers a transaction: U10's stuck state, raised by every command that
  issues a transaction (INIT, DEINIT, POWERON, POWEROFF, CONTRAST, INVERT, SHOW). Safe: the block
  has no timeout (R61), so no effect is claimed of a command that never completes. -/
  | busNeverAnswers
deriving DecidableEq, Repr

/-- Why a step has no meaning. -/
inductive Refusal where
  /-- An instruction without a meaning in this model, by its mnemonic; raised by no arm. Safe. -/
  | notModelled (mnemonic : String)
deriving DecidableEq, Repr

/-- The answer of a step. -/
abbrev Outcome := Host.Outcome State Fault Refusal

/-- The machine right after reset (R39, R230, R231): `UNINIT`, so no handle field exists; `TRACE`
empty; nothing known of the panel; no input waiting (logs 3, 7, 10, 11). -/
def State.reset : State :=
  { cfg := Config.installed
    life := .uninit
    trace := []
    responses := []
    inputs := []
    events := []
    busIndex := 0
    panel := Panel.unknown }

end Sys2Proof.Machine
end

