-- ==== Sys2Proof/Machine/Flags.lean ====
section
/-! DEFINITION. The block has no flags (`spec/10_state.md` R29); the only status a command produces is
its result code. The codes and the bytes of a response (`spec/30_encoding.md` R88, R89). -/

namespace Sys2Proof.Machine

/-- The code column of R88. -/
def Result.code : Result → Byte
  | .ok => 0x00
  | .ioFail => 0x01
  | .invalidGeometry => 0x02
  | .illegalState => 0x03
  | .illegalCommand => 0x04

/-- The bytes the host receives (R89). -/
def Response.bytes (r : Response) : List Byte :=
  match r.value with
  | none => [r.result.code]
  | some v => [r.result.code, v]

/-- GET_PIXEL's second response byte (R89). -/
def pixelByte (on : Bool) : Byte := if on then 0x01 else 0x00

/-- The response to a packet R86 (a) to (c) calls illegal: one byte, but two where the opcode is
GET_PIXEL's (R89, R206; log 14). -/
def illegalPacketResponse : IllegalPacket → Response
  | .wrongLength .getPixel => { result := .illegalCommand, value := some 0x00 }
  | .wrongLength _ | .emptyPacket | .unknownOpcode _ => { result := .illegalCommand, value := none }

end Sys2Proof.Machine
end

