-- ==== Sys2Proof/Machine/Cells.lean ====
section
/-! DEFINITION. Bytes by index, as lists of `Host.Cell` with rising indices: the pixel buffer
(`spec/10_state.md` R31) and the panel's known bytes (`spec/60_exceptions.md` R219) are kept so. -/

namespace Sys2Proof.Machine

/-- The byte listed at `a`, if any. -/
def Cells.get : List Host.Cell → Nat → Option Byte
  | [], _ => none
  | c :: m, a => if c.1 = a then some c.2 else Cells.get m a

/-- List `v` at `a`, in the place of what is listed there. -/
def Cells.put : List Host.Cell → Nat → Byte → List Host.Cell
  | [], a, v => [(a, v)]
  | c :: m, a, v =>
    if a < c.1 then (a, v) :: c :: m
    else if c.1 = a then (a, v) :: m
    else c :: Cells.put m a v

/-- List nothing at `a`. -/
def Cells.erase (m : List Host.Cell) (a : Nat) : List Host.Cell := m.filter fun c => c.1 ≠ a

/-- List the bytes `vs` at `a`, `a + 1`, ... -/
def Cells.putAll : List Host.Cell → Nat → List Byte → List Host.Cell
  | m, _, [] => m
  | m, a, v :: vs => Cells.putAll (Cells.put m a v) (a + 1) vs

end Sys2Proof.Machine
end

