-- ==== Sys2Proof/Machine/Operands.lean ====
section
/-! DEFINITION. The values of operands (`spec/30_encoding.md` R82, `spec/00_scope.md` R8, R10) and the
font tables' access (`spec/20_memory.md` R58, `spec/30_encoding.md` R100). -/

namespace Sys2Proof.Machine

/-- The value of an `i16`: two's complement, unbounded from here on (R10 d). -/
abbrev coordVal (x : Coord) : Int := x.toInt

/-- The value of a `u8`. -/
abbrev byteVal (b : Byte) : Nat := b.toNat

/-- `ceil(HEIGHT / 8)` (R10 a). -/
def pagesOf (height : Byte) : BitVec 6 := BitVec.ofNat 6 ((byteVal height + 7) / pageRows)

/-- `FontLookup(f, c)` (R58): five column bytes, or nothing outside the covered range. A data byte the
table lacks counts as blank (log 20). -/
def fontLookup (f : FontTable) (c : Byte) : Option (List Byte) :=
  if byteVal f.first ≤ byteVal c ∧ byteVal c ≤ byteVal f.last then
    some ((List.range glyphW).map fun k =>
      f.data.getD ((byteVal c - byteVal f.first) * glyphW + k) 0)
  else none

/-- `FontLookup(FONTS[S.FONT_SEL], c)`. A selection beyond the wired fonts finds nothing (log 20). -/
def activeGlyph (cfg : Config) (fontSel c : Byte) : Option (List Byte) :=
  match cfg.fonts[byteVal fontSel]? with
  | some f => fontLookup f c
  | none => none

/-- The glyph bit `col[gc][gr]`, row 0 in bit 0 (R100). -/
def glyphBit (col : List Byte) (gc gr : Nat) : Bool := (col.getD gc 0).getLsbD gr

/-- `COM_PIN_CFG(w, h)` (R96). -/
def comPinVal (c : ComPinCfg) (w h : Byte) : Byte :=
  match c.table.find? fun e => e.1 = (w, h) with
  | some e => e.2
  | none => if byteVal w > 2 * byteVal h then c.wide else c.normal

end Sys2Proof.Machine
end

