-- ==== Sys2Proof/Machine/Frames.lean ====
section
/-! DEFINITION. What the block sends to the panel (`spec/30_encoding.md` R93 to R99): device commands,
the bytes of each frame under a `WIRE`, and the INIT sequence. -/

namespace Sys2Proof.Machine

/-- A device command with its operands, each one transaction (R94, R97 to R99). -/
inductive PanelCmd where
  | displayOff
  | displayOn
  | clockDivide
  | muxRatio (v : Byte)
  | displayOffset (v : Byte)
  | startLine0
  | chargePump (external : Bool)
  | segRemap
  | comDirection
  | comPins (v : Byte)
  | contrast (v : Byte)
  | vcomDeselect
  | entireOnResume
  | video (inverse : Bool)
  | addressingHorizontal
  /-- The address frame of SHOW: the column range and the page range (R98). -/
  | address (colStart colEnd pageStart pageEnd : Byte)
deriving DecidableEq, Repr

/-- A frame (R94, R95). -/
inductive BusFrame where
  | command (c : PanelCmd)
  | data (payload : List Byte)
deriving DecidableEq, Repr

/-- The charge pump operand of R97 step 6. -/
def chargePumpVal (w : Wire) (external : Bool) : Byte :=
  if external then w.cpExternal else w.cpInternal

/-- The bytes of a device command after the control byte. -/
def cmdBytes (w : Wire) : PanelCmd → List Byte
  | .displayOff => [w.displayOff]
  | .displayOn => [w.displayOn]
  | .clockDivide => [w.clockDiv, w.clockDivVal]
  | .muxRatio v => [w.muxRatio, v]
  | .displayOffset v => [w.displayOffset, v]
  | .startLine0 => [w.startLine0]
  | .chargePump ext => [w.chargePump, chargePumpVal w ext]
  | .segRemap => [w.segRemap]
  | .comDirection => [w.comDir]
  | .comPins v => [w.comPins, v]
  | .contrast v => [w.contrast, v]
  | .vcomDeselect => [w.vcomDesel, w.vcomLevel]
  | .entireOnResume => [w.entireOnResume]
  | .video inverse => [if inverse then w.inverse else w.normal]
  | .addressingHorizontal => [w.memMode, w.memModeHorizontal]
  | .address c0 c1 p0 p1 => [w.setColAddr, c0, c1, w.setPageAddr, p0, p1]

/-- The bytes of a frame: the control byte first (R93). -/
def frameBytes (w : Wire) : BusFrame → List Byte
  | .command c => w.ctrlCmd :: cmdBytes w c
  | .data payload => w.ctrlData :: payload

/-- `InitSteps(w, h, evcc)`, fifteen steps in this order (R97). -/
def initSteps (wire : Wire) (w h : Byte) (evcc : Bool) : List PanelCmd :=
  [.displayOff,
   .clockDivide,
   .muxRatio (h - 1),
   .displayOffset 0x00,
   .startLine0,
   .chargePump evcc,
   .segRemap,
   .comDirection,
   .comPins (comPinVal wire.comPinCfg w h),
   .contrast wire.contrastDefault,
   .vcomDeselect,
   .entireOnResume,
   .video false,
   .addressingHorizontal,
   .displayOn]

/-- The frames of INIT. -/
def initFrames (wire : Wire) (w h : Byte) (evcc : Bool) : List BusFrame :=
  (initSteps wire w h evcc).map .command

/-- `AddrFrame(p)` (R98). -/
def addrFrame (width : Byte) (p : Nat) : BusFrame :=
  .command (.address 0x00 (width - 1) (BitVec.ofNat 8 p) (BitVec.ofNat 8 p))

end Sys2Proof.Machine
end

