-- ==== Sys2Proof/Machine/Panel.lean ====
section
/-! DEFINITION. The reference sink of the panel
(`spec/60_exceptions.md` R219; `spec/10_state.md` R36; `spec/93_implementation_defined.md` U1, U3).
The sink is the spec's assumption about the device behind the bus; no command of the block reads it. -/

namespace Sys2Proof.Machine

/-- The key of `DEV[p][x]`. -/
def devKey (p x : Nat) : Nat := p * 256 + x

/-- The key lies in the window. -/
def Window.covers (w : Window) (key : Nat) : Bool :=
  w.pageStart ≤ key / 256 && key / 256 ≤ w.pageEnd &&
    (w.colStart ≤ key % 256 && key % 256 ≤ w.colEnd)

/-- `DEV[p][x]`, where a value is known. -/
def Panel.devByte (d : Panel) (p x : Nat) : Option Byte := Cells.get d.dev (devKey p x)

/-- The lit pixel at `(x, y)` (R219 d), where it is known. -/
def Panel.lit (d : Panel) (x y : Nat) : Option Bool :=
  match d.power with
  | none => none
  | some false => some false
  | some true =>
    match d.inverted, d.devByte (y / pageRows) x with
    | some inv, some b => some (b.getLsbD (y % pageRows) != inv)
    | _, _ => none

/-- The bytes of a window and the cursor become unknown (R219 c); with no window known, every byte
does. -/
def Panel.forget (d : Panel) (w : Option Window) : Panel :=
  match w with
  | none => { d with dev := [], cursor := none }
  | some w => { d with dev := d.dev.filter fun c => !w.covers c.1, cursor := none }

/-- A successful data frame (R219 b): the bytes go to the cursor's place and on. The spec does not say
where the cursor stands once the bytes have filled the window, and here it is unknown then (log 27,
DESIGN CHOICE). Where the place is not known, or the bytes do not fit the window, what they overwrite
becomes unknown (log 17). Any geometry is taken (log 26, DESIGN CHOICE beside U9). -/
def Panel.acceptData (d : Panel) (payload : List Byte) : Panel :=
  match d.window, d.cursor with
  | some w, some (p, x) =>
    if x + payload.length ≤ w.colEnd + 1 then
      { d with
        dev := Cells.putAll d.dev (devKey p x) payload
        cursor := if x + payload.length ≤ w.colEnd then some (p, x + payload.length) else none }
    else d.forget d.window
  | _, _ => d.forget d.window

/-- A successful command frame: an address frame sets window and cursor (R219 a), any other sets the
setting it names (R36). -/
def Panel.acceptCmd (wire : Wire) (d : Panel) : PanelCmd → Panel
  | .displayOff => { d with power := some false }
  | .displayOn => { d with power := some true }
  | .clockDivide => { d with clockDivide := some wire.clockDivVal }
  | .muxRatio v => { d with muxRatio := some v }
  | .displayOffset v => { d with displayOffset := some v }
  | .startLine0 => { d with startLine := some 0 }
  | .chargePump ext => { d with chargePump := some (chargePumpVal wire ext) }
  | .segRemap => { d with segRemap := some wire.segRemap }
  | .comDirection => { d with comDirection := some wire.comDir }
  | .comPins v => { d with comPins := some v }
  | .contrast v => { d with contrast := some v }
  | .vcomDeselect => { d with vcomLevel := some wire.vcomLevel }
  | .entireOnResume => { d with entireOn := some false }
  | .video inverse => { d with inverted := some inverse }
  | .addressingHorizontal => { d with addressingMode := some wire.memModeHorizontal }
  | .address c0 c1 p0 p1 =>
    { d with
      window := some ⟨byteVal c0, byteVal c1, byteVal p0, byteVal p1⟩
      cursor := some (byteVal p0, byteVal c0) }

/-- A successful frame. -/
def Panel.accept (wire : Wire) (d : Panel) : BusFrame → Panel
  | .command c => d.acceptCmd wire c
  | .data payload => d.acceptData payload

/-- What is still known of the panel after a failed frame of SHOW: the bytes of its memory outside the
window `w` (U3, R219 c); no setting, no window and no cursor (R36, R62). -/
def Panel.keepOutside (d : Panel) (w : Option Window) : Panel :=
  { Panel.unknown with target := d.target, dev := (d.forget w).dev }

/-- A failed frame. After it the panel holds no value (R36, R62, R210, R241), but for what U3 and R219 (c)
say of the frames of SHOW: memory outside the window of the failing frame stays (log 17). -/
def Panel.lose (d : Panel) : BusFrame → Panel
  | .command (.address c0 c1 p0 p1) =>
    d.keepOutside (some ⟨byteVal c0, byteVal c1, byteVal p0, byteVal p1⟩)
  | .command _ => Panel.unknown
  | .data _ => d.keepOutside d.window

/-- The panel behind a bus target: another target's panel is one of which nothing is known
(log 19). -/
def Panel.at (d : Panel) (target : Byte) : Panel :=
  if d.target = some target then d else { Panel.unknown with target := some target }

end Sys2Proof.Machine
end

