-- ==== Sys2Proof/Machine/Ops.lean ====
section
/-! DEFINITION. The operations the meanings share: buffer bytes and pixels (`spec/20_memory.md` R51 to
R55, `spec/40_buffer_model.md` R121), completing a command with a result
(`spec/60_exceptions.md` R200, R209), reset (`spec/70_reset_and_hazards.md` R230) and the Bus
Transport (`spec/20_memory.md` R61). -/

namespace Sys2Proof.Machine

/-! ### Buffer bytes -/

/-- The byte at index `a`; an unlisted byte is `0x00`. -/
def Memory.read (m : Memory) (a : Nat) : Byte := (Cells.get m a).getD 0x00

/-- Write one byte, keeping the canonical form. -/
def Memory.write (m : Memory) (a : Nat) (v : Byte) : Memory :=
  if v = 0x00 then Cells.erase m a else Cells.put m a v

/-- `MemRead(addr, n)` (R9): ascending index order. -/
def memRead (m : Memory) (addr n : Nat) : List Byte := (List.range n).map fun k => m.read (addr + k)

/-- Write `0x00` to the bytes `0 .. n - 1`, in ascending order. -/
def zeroBytes (m : Memory) (n : Nat) : Memory := (List.range n).foldl (fun m i => m.write i 0x00) m

/-! ### Pixels -/

/-- The number of bytes of the buffer, `WIDTH * PAGES` (R34). -/
def Handle.size (h : Handle) : Nat := byteVal h.width * h.pages.toNat

/-- `0 <= x < WIDTH` and `0 <= y < HEIGHT`, on the exact signed values (R55). -/
abbrev Handle.onScreen (h : Handle) (x y : Int) : Prop :=
  0 ≤ x ∧ x < (byteVal h.width : Int) ∧ 0 ≤ y ∧ y < (byteVal h.height : Int)

/-- `idx(x, y)` of R52, for a pixel on the screen. -/
def Handle.idx (h : Handle) (x y : Int) : Nat := y.toNat / pageRows * byteVal h.width + x.toNat

/-- `bit(y)` of R52. -/
def bitOf (y : Int) : Nat := y.toNat % pageRows

/-- `Pix(x, y)` of R52 on the screen, off outside it (R123). -/
def Handle.pix (h : Handle) (x y : Int) : Bool :=
  if h.onScreen x y then (h.buf.read (h.idx x y)).getLsbD (bitOf y) else false

/-- A byte with one bit set or cleared (R121). -/
def withBit (old : Byte) (bit : Nat) (on : Bool) : Byte :=
  if on then old ||| (1#8 <<< bit) else old &&& ~~~(1#8 <<< bit)

/-- `SetPixel(x, y, on)`: the body of R121, clipping included. -/
def Handle.setPixel (h : Handle) (x y : Int) (on : Bool) : Handle :=
  if h.onScreen x y then
    { h with buf := h.buf.write (h.idx x y) (withBit (h.buf.read (h.idx x y)) (bitOf y) on) }
  else h

/-! ### Completing a command -/

/-- Deliver a response. -/
def State.respond (s : State) (r : Response) : State := { s with responses := s.responses ++ [r] }

/-- Complete with the result `r` (R200). Every result other than `OK` leaves the block through this
one operation: nothing is saved, no mode changes, and the next packet follows (R210, R211). -/
def complete (r : Result) (s : State) : Outcome := .next (s.respond { result := r, value := none })

/-- The handle replaced. -/
def State.withHandle (s : State) (h : Handle) : State := { s with life := .ready h }

/-- Check 2 of R209 for a command that is allowed in `READY` only: `ILLEGAL_STATE` in `UNINIT`. -/
def whenReady (s : State) (body : Handle → Outcome) : Outcome :=
  match s.life with
  | .uninit => complete .illegalState s
  | .ready h => body h

/-! ### Reset -/

/-- A reset (R230, R231): `UNINIT`, and `TRACE` empty; no transaction, and the panel is left as it
was (log 9). -/
def State.hardReset (s : State) : State := { s with life := .uninit, trace := [] }

/-- A reset that cuts a transaction: no value of the panel is known any more (R230, U12). -/
def State.cutReset (s : State) : State :=
  { s with life := .uninit, trace := [], panel := Panel.unknown }

/-- A reset that finds a command's work done and its response not yet given: the command is abandoned
(R230), so only the responses `before` it have been given; the panel is as the command left it. -/
def State.abandon (s : State) (before : List Response) : State :=
  { s.hardReset with responses := before }

/-- The handle given up (R145). -/
def State.release (s : State) : State := { s with life := .uninit }

/-- No byte of the panel's display memory is known any more (R235, U13). -/
def State.forgetPicture (s : State) : State := { s with panel := s.panel.forget none }

/-! ### The Bus Transport -/

/-- What the next transaction meets: the script's next entry, or the free value. -/
def State.nextEvent (s : State) : BusEvent := s.events.headD (Config.freeBusEvent s.busIndex)

/-- The transaction has been asked for. -/
def State.dropEvent (s : State) : State :=
  { s with events := s.events.tail, busIndex := s.busIndex + 1 }

/-- A transaction that returned: `TRACE` gains it (R37) and the panel has taken it or lost it. -/
def State.record (s : State) (target : Byte) (f : BusFrame) (o : BusOutcome) : State :=
  { s with
    trace := s.trace ++ [{ target := target, bytes := frameBytes s.cfg.wire f, outcome := o }]
    panel := match o with
      | .ok => (s.panel.at target).accept s.cfg.wire f
      | .fail => (s.panel.at target).lose f }

/-- How a sequence of transactions ends: all answered `ok`; one answered `fail`; a reset came; or one
is never answered. -/
inductive BusEnd where
  | ok (s : State)
  | fail (s : State)
  | reset (s : State)
  | stuck
deriving DecidableEq, Repr

/-- `BusWrite(target, bytes)` (R61). -/
def busWrite (target : Byte) (f : BusFrame) (s : State) : BusEnd :=
  match s.nextEvent with
  | .ok => .ok (s.dropEvent.record target f .ok)
  | .fail => .fail (s.dropEvent.record target f .fail)
  | .hang => .stuck
  | .resetBefore => .reset s.dropEvent.hardReset
  | .resetDuring => .reset s.dropEvent.cutReset

/-- Transactions in order, each issued after the previous one answered `ok`; the first that does not
ends the sequence (R69, R143, R173). -/
def sendAll (target : Byte) : List BusFrame → State → BusEnd
  | [], s => .ok s
  | f :: fs, s =>
    match busWrite target f s with
    | .ok t => sendAll target fs t
    | .fail t => .fail t
    | .reset t => .reset t
    | .stuck => .stuck

/-- The end of a command that issues transactions: what it does when all were `ok` and when one
failed. A reset abandons it without a response (R230); no answer is U10's stuck state. -/
def afterBus (e : BusEnd) (onOk onFail : State → Outcome) : Outcome :=
  match e with
  | .ok t => onOk t
  | .fail t => onFail t
  | .reset t => .next t
  | .stuck => .fault .busNeverAnswers

/-- The result of a failed transaction where the document ignores it (R146). -/
def cosmeticResult (cfg : Config) : Result :=
  if cfg.surfaceCosmeticErrors then .ioFail else .ok

/-- The shared pseudocode of POWERON, POWEROFF, CONTRAST and INVERT (R146). -/
def cosmetic (c : PanelCmd) (s : State) : Outcome :=
  whenReady s fun h =>
    afterBus (busWrite h.address (.command c) s) (complete .ok)
      (fun t => complete (cosmeticResult t.cfg) t)

end Sys2Proof.Machine
end

