-- ==== Sys2Proof/Machine/Buffer.lean ====
section
/-! DEFINITION. The buffer model commands SET_PIXEL, GET_PIXEL and CLEAR (`spec/40_buffer_model.md`). -/

namespace Sys2Proof.Machine

/-- SET_PIXEL (R121). -/
def execSetPixel (x y : Coord) (on : Bool) (s : State) : Outcome :=
  whenReady s fun h => complete .ok (s.withHandle (h.setPixel (coordVal x) (coordVal y) on))

/-- GET_PIXEL (R123): the response carries the value, `0x00` unless the result is `OK` (R89). -/
def execGetPixel (x y : Coord) (s : State) : Outcome :=
  match s.life with
  | .uninit => .next (s.respond { result := .illegalState, value := some 0x00 })
  | .ready h =>
    .next (s.respond { result := .ok, value := some (pixelByte (h.pix (coordVal x) (coordVal y))) })

/-- CLEAR (R125). -/
def execClear (s : State) : Outcome :=
  whenReady s fun h => complete .ok (s.withHandle { h with buf := zeroBytes h.buf h.size })

end Sys2Proof.Machine
end

