-- ==== Sys2Proof/Machine/Control.lean ====
section
/-! DEFINITION. Initialization and device control: INIT, DEINIT, POWERON, POWEROFF, CONTRAST and INVERT
(`spec/41_device_control.md`). -/

namespace Sys2Proof.Machine

/-- The handle a successful INIT leaves (R141). -/
def freshHandle (width height address : Byte) (evcc : Bool) : Handle :=
  { width := width, height := height, pages := pagesOf height, address := address
    externalVcc := evcc, fontSel := 0, buf := [] }

/-- INIT (R141 to R144). A failed transaction leaves no value of the panel known (U1, log 18; this is
`Panel.lose` of a command frame). INIT sends no data frame, and after it no byte of the panel's
display memory is known until a SHOW sends it (R235, U13, log 25). -/
def execInit (width height address : Byte) (evcc : Bool) (s : State) : Outcome :=
  match s.life with
  | .ready _ => complete .illegalState s
  | .uninit =>
    if width = 0 ∨ height = 0 then complete .invalidGeometry s
    else if byteVal width * (pagesOf height).toNat > s.cfg.bufCap then complete .invalidGeometry s
    else
      afterBus (sendAll address (initFrames s.cfg.wire width height evcc) s)
        (fun t => complete .ok
          (t.forgetPicture.withHandle (freshHandle width height address evcc)))
        (complete .ioFail)

/-- DEINIT (R145): the handle is given up whatever the transport answers. -/
def execDeinit (s : State) : Outcome :=
  whenReady s fun h =>
    afterBus (busWrite h.address (.command .displayOff) s)
      (fun t => complete .ok t.release)
      (fun t => complete (cosmeticResult t.cfg) t.release)

/-- POWERON (R147). -/
def execPowerOn (s : State) : Outcome := cosmetic .displayOn s

/-- POWEROFF (R148). -/
def execPowerOff (s : State) : Outcome := cosmetic .displayOff s

/-- CONTRAST (R149): the value goes out as it came. -/
def execContrast (val : Byte) (s : State) : Outcome := cosmetic (.contrast val) s

/-- INVERT (R150). -/
def execInvert (flag : Bool) (s : State) : Outcome := cosmetic (.video flag) s

end Sys2Proof.Machine
end

