-- ==== Sys2Proof/Machine/Flush.lean ====
section
/-! DEFINITION. The flush command SHOW (`spec/42_flush_show.md`). -/

namespace Sys2Proof.Machine

/-- The two frames of page `p` (R95, R98, R171). -/
def pageFrames (h : Handle) (p : Nat) : List BusFrame :=
  [addrFrame h.width p, .data (memRead h.buf (p * byteVal h.width) (byteVal h.width))]

/-- All frames of one SHOW: pages ascending, the address frame before the data frame (R171, R172).
The buffer does not change under a SHOW (R174), so the frames are those of its start. -/
def showFrames (h : Handle) : List BusFrame := (List.range h.pages.toNat).flatMap (pageFrames h)

/-- SHOW (R171 to R175). -/
def execShow (s : State) : Outcome :=
  whenReady s fun h =>
    afterBus (sendAll h.address (showFrames h) s) (complete .ok) (complete .ioFail)

end Sys2Proof.Machine
end

