-- ==== Sys2Proof/Machine/Raster.lean ====
section
/-! DEFINITION. The glyph rasterizer DRAW_CHAR, DRAW_STRING and SET_FONT
(`spec/43_glyph_rasterizer.md`). -/

namespace Sys2Proof.Machine

/-- The filled `scale` by `scale` block with its top-left corner at `(x, y)` (R181). -/
def paintBlock (scale : Nat) (x y : Int) (h : Handle) : Handle :=
  (List.range scale).foldl (fun h (dy : Nat) =>
    (List.range scale).foldl (fun h (dx : Nat) => h.setPixel (x + dx) (y + dy) true) h) h

/-- The scaled glyph `col`, its top-left corner at `(x, y)` (R181): columns left to right, rows top to
bottom. -/
def paintGlyph (col : List Byte) (scale : Nat) (x y : Int) (h : Handle) : Handle :=
  (List.range glyphW).foldl (fun h (gc : Nat) =>
    (List.range glyphH).foldl (fun h (gr : Nat) =>
      if glyphBit col gc gr then paintBlock scale (x + gc * scale) (y + gr * scale) h else h) h) h

/-- `DrawChar(x, y, scale, c)`: the body of R181 without its return. A code without a glyph paints
nothing (R185 a). -/
def paintChar (cfg : Config) (x y : Int) (scale : Nat) (c : Byte) (h : Handle) : Handle :=
  match activeGlyph cfg h.fontSel c with
  | some col => paintGlyph col scale x y h
  | none => h

/-- The characters of `s` from number `i` on, each at the cursor `x + i*6*scale` (R187, R188). -/
def paintString (cfg : Config) (x y : Int) (scale : Nat) : Nat → List Byte → Handle → Handle
  | _, [], h => h
  | i, c :: s, h =>
    paintString cfg x y scale (i + 1) s (paintChar cfg (x + i * advance * scale) y scale c h)

/-- DRAW_CHAR (R181). -/
def execDrawChar (x y : Coord) (scale c : Byte) (s : State) : Outcome :=
  whenReady s fun h =>
    complete .ok (s.withHandle (paintChar s.cfg (coordVal x) (coordVal y) (byteVal scale) c h))

/-- DRAW_STRING (R187). -/
def execDrawString (x y : Coord) (scale : Byte) (str : List Byte) (s : State) : Outcome :=
  whenReady s fun h =>
    complete .ok
      (s.withHandle (paintString s.cfg (coordVal x) (coordVal y) (byteVal scale) 0 str h))

/-- SET_FONT (R191). A font that is not wired makes the packet illegal, which is checked before the
state (R86 d, R209; log 15). -/
def execSetFont (id : Byte) (s : State) : Outcome :=
  if byteVal id < s.cfg.nfonts then
    whenReady s fun h => complete .ok (s.withHandle { h with fontSel := id })
  else complete .illegalCommand s

end Sys2Proof.Machine
end

