-- ==== Sys2Proof/Machine/Dispatch.lean ====
section
/-! DEFINITION. One arm per command, one direct call of its meaning (the packet check of R209 is in
`Sys2Proof/Machine/Step.lean`). -/

namespace Sys2Proof.Machine

def exec (i : Instr) (s : State) : Host.Outcome State Fault Refusal :=
  match i with
  | .setPixel x y on => Sys2Proof.Machine.execSetPixel x y on s
  | .getPixel x y => Sys2Proof.Machine.execGetPixel x y s
  | .clear => Sys2Proof.Machine.execClear s
  | .init width height address evcc => Sys2Proof.Machine.execInit width height address evcc s
  | .deinit => Sys2Proof.Machine.execDeinit s
  | .powerOn => Sys2Proof.Machine.execPowerOn s
  | .powerOff => Sys2Proof.Machine.execPowerOff s
  | .contrast val => Sys2Proof.Machine.execContrast val s
  | .invert flag => Sys2Proof.Machine.execInvert flag s
  | .showBuf => Sys2Proof.Machine.execShow s
  | .drawChar x y scale c => Sys2Proof.Machine.execDrawChar x y scale c s
  | .drawString x y scale str => Sys2Proof.Machine.execDrawString x y scale str s
  | .setFont id => Sys2Proof.Machine.execSetFont id s

end Sys2Proof.Machine
end

