-- ==== Sys2Proof/Machine/Fetch.lean ====
section
/-! DEFINITION. The command port (`spec/30_encoding.md` R80, `spec/20_memory.md` R65): what the idle block
takes next, and what it does with a packet (`spec/60_exceptions.md` R209). -/

namespace Sys2Proof.Machine

/-- What the host presents next, and the state with it taken; nothing when the block stays idle. -/
def fetchInput (s : State) : Option (Input × State) :=
  match s.inputs with
  | [] => none
  | i :: rest => some (i, { s with inputs := rest })

/-- One packet: check 1 of R209, then the command. -/
def runPacket (p : List Byte) (s : State) : Outcome :=
  match decode p with
  | .error e => .next (s.respond (illegalPacketResponse e))
  | .ok i => exec i s

/-- One packet whose command a reset abandons before its response (R230). What the command sent it has
sent. A command that is stuck at a transaction never comes to this point. With the response an
`ILLEGAL_STATE` or `ILLEGAL_COMMAND` is dropped, so that the run is not marked as gone wrong: DESIGN
CHOICE (log 28), open between R221 and U5. -/
def runThenReset (p : List Byte) (s : State) : Outcome :=
  match runPacket p s with
  | .next t => .next (t.abandon s.responses)
  | .fault f => .fault f
  | .refused r => .refused r

/-- The state in which the host presents `p` next. -/
def placePacket (p : List Byte) (s : State) : State := { s with inputs := .packet p :: s.inputs }

end Sys2Proof.Machine
end

