-- ==== Sys2Proof/Machine/Step.lean ====
section
/-! DEFINITION. One step of the block: it takes what the host presents next, which is a packet, run to
completion, a reset, or a packet that a reset abandons (`spec/70_reset_and_hazards.md` R230). With nothing presented the block stays
idle (`spec/60_exceptions.md` R220). -/

namespace Sys2Proof.Machine

/-- The step. -/
def step (s : State) : Host.Outcome State Fault Refusal :=
  match fetchInput s with
  | none => .next s
  | some (.reset, t) => .next t.hardReset
  | some (.packet p, t) => runPacket p t
  | some (.packetThenReset p, t) => runThenReset p t

/-- The packet of the word `w` of `nbits` bits as the next thing the host presents (log 22). -/
def State.withFetchWord (s : State) (nbits w : Nat) : State := placePacket (packetOfWord nbits w) s

end Sys2Proof.Machine
end

