-- ==== Sys2Proof/Safety.lean ====
section
/-! DEFINITION. What counts as a safe run, and the words claims are written in: the invariant of the
state (`spec/10_state.md` R21 to R34), the mark of a run that went wrong (`spec/60_exceptions.md` R221,
`spec/93_implementation_defined.md` U5, U7, U8), what the transport does, and the closed form of the
rasterizer (`spec/43_glyph_rasterizer.md` R182). -/

namespace Sys2Proof.Machine

/-! ### Runs that went wrong -/

/-- The run has been given an answer the document's contract rules out (R221, U5, U8). DESIGN CHOICE
(log 28): the mark follows the responses given, so an illegal packet, or a command in the wrong state,
that a reset abandons before its response does not mark the run; R221 has a run that reaches the result,
U5 a command sent, and neither names this case. -/
def State.goneWrong (s : State) : Bool :=
  s.responses.any fun r => r.result = .illegalState || r.result = .illegalCommand

/-- Byte `k` of a packet is a flag byte with a reserved bit set. -/
def reservedSetAt (p : List Byte) (k : Nat) : Bool := (p.getD k 0) &&& 0xFE#8 ≠ 0

/-- The packet sets a reserved bit of a `flag` byte (R82, R84, U7): SET_PIXEL's byte 5, INIT's byte 4,
INVERT's byte 1. The block ignores the bit (log 12). -/
def reservedFlagBits (p : List Byte) : Bool :=
  match opcodeOf (p.getD 0 0) with
  | some .setPixel => reservedSetAt p 5
  | some .init => reservedSetAt p 4
  | some .invert => reservedSetAt p 1
  | _ => false

/-- A packet a careful host sends: legal on this machine, and no reserved bit set (R221, U7, U8). -/
def carefulPacket (cfg : Config) (p : List Byte) : Bool :=
  match decode p with
  | .ok i => i.legal cfg.nfonts && !reservedFlagBits p
  | .error _ => false

/-! ### The invariant -/

/-- Every bit of the buffer whose row is not on the screen is 0 (R33): byte `i` holds the rows
`(i div WIDTH)*8 ..` (R52). -/
abbrev Handle.paddingClear (h : Handle) : Prop :=
  ∀ i < h.size, ∀ b < 8, byteVal h.height ≤ i / byteVal h.width * 8 + b →
    (h.buf.read i).getLsbD b = false

/-- What holds of every handle (R22, R23, R26, R33, R34, R142) and the canonical form of its buffer. -/
abbrev Handle.Inv (cfg : Config) (h : Handle) : Prop :=
  1 ≤ byteVal h.width ∧ 1 ≤ byteVal h.height ∧
  h.pages.toNat = (byteVal h.height + 7) / 8 ∧
  byteVal h.fontSel < cfg.nfonts ∧
  h.size ≤ cfg.bufCap ∧
  h.buf.wf ∧ (∀ c ∈ h.buf, c.1 < h.size) ∧
  h.paddingClear

/-- The handle, where there is one, meets `Handle.Inv`. -/
abbrev Lifecycle.Inv (cfg : Config) (l : Lifecycle) : Prop :=
  match l with
  | .uninit => True
  | .ready h => h.Inv cfg

/-- The invariant of the state: legal parameters, a legal handle, and the panel's known bytes listed
in rising order. -/
abbrev State.Inv (s : State) : Prop :=
  s.cfg.wf ∧ s.life.Inv s.cfg ∧ Cells.sorted s.panel.dev

/-! ### What the transport does -/

/-- What transaction number `k` from here meets. -/
def State.eventAt (s : State) (k : Nat) : BusEvent :=
  s.events.getD k (Config.freeBusEvent (s.busIndex + k))

/-- At most how many transactions a command issues (R245). -/
def maxTransactions (i : Instr) (s : State) : Nat :=
  match i with
  | .init _ _ _ _ => 15
  | .deinit | .powerOn | .powerOff | .contrast _ | .invert _ => 1
  | .showBuf =>
    match s.life with
    | .uninit => 0
    | .ready h => 2 * h.pages.toNat
  | .setPixel _ _ _ | .getPixel _ _ | .clear | .drawChar _ _ _ _ | .drawString _ _ _ _
  | .setFont _ => 0

/-- The `TRACE` entries of frames that were all answered `ok`. -/
def sentOk (wire : Wire) (target : Byte) (fs : List BusFrame) : List Transaction :=
  fs.map fun f => { target := target, bytes := frameBytes wire f, outcome := .ok }

/-- The state after the frames `fs` went to `target` and were all answered `ok`: `TRACE` has gained
them in order, the panel has taken them, and that many answers are used up. -/
def State.afterSent (s : State) (target : Byte) (fs : List BusFrame) : State :=
  { s with
    trace := s.trace ++ sentOk s.cfg.wire target fs
    panel := fs.foldl (fun d f => (d.at target).accept s.cfg.wire f) s.panel
    events := s.events.drop fs.length
    busIndex := s.busIndex + fs.length }

/-- The command completed: it delivered a response (R200). A command that a reset abandons delivers
none (R230). -/
abbrev State.completedAs (s t : State) (r : Result) : Prop :=
  ∃ v, t.responses = s.responses ++ [⟨r, v⟩]

/-! ### The picture -/

/-- `Painted(X, Y)` of R182, for the character `c` drawn at `(x, y)`. -/
def painted (cfg : Config) (fontSel : Byte) (x y : Int) (scale : Nat) (c : Byte) (X Y : Int) : Prop :=
  1 ≤ scale ∧ ∃ col, activeGlyph cfg fontSel c = some col ∧
    0 ≤ X - x ∧ (X - x) / (scale : Int) ≤ 4 ∧
    0 ≤ Y - y ∧ (Y - y) / (scale : Int) ≤ 6 ∧
    glyphBit col ((X - x) / (scale : Int)).toNat ((Y - y) / (scale : Int)).toNat = true

/-- Pixel `(X, Y)` lies in the cell of a character drawn at `(x, y)` (R186). -/
abbrev inCell (x y : Int) (scale : Nat) (X Y : Int) : Prop :=
  x ≤ X ∧ X < x + 5 * scale ∧ y ≤ Y ∧ Y < y + 7 * scale

end Sys2Proof.Machine
end

