-- ==== Sys2Proof/Certificates/Slice0/Obligations.lean ====
section
/-! DEFINITION. The statements about the model, from the numbered rules of the spec. `OBLIGATIONS.json`
lists them with their rules; the witnesses of their hypotheses are in `Sys2Proof/Tests/Slice0.lean`. -/

open Sys2Proof Sys2Proof.Machine

/-! ### Encoding (30 R81 to R88) -/

/-- Decoding the packet of any command that has one gives the command back, whatever its operands. -/
def Obligations.DecodeOfEncodeIsIdentity : Prop :=
  ∀ i : Instr, i.wf = true → decode (encode i) = .ok i

/-- A packet that decodes is the packet of its command, but for the reserved bits of a flag byte
(R82, R86), which are cleared. -/
def Obligations.EncodeOfDecodeRestoresPacket : Prop :=
  ∀ (p : List Byte) (i : Instr), decode p = .ok i →
    i.wf = true ∧ (encode i).length = p.length ∧
    (reservedFlagBits p = false → encode i = p)

/-- The thirteen opcodes of R83 with the lengths of R84 and R87 decode, and no other packet does. -/
def Obligations.DecodableIffOpcodeAndLength : Prop :=
  (∀ i, decode [] ≠ .ok i) ∧
  ∀ (b : Byte) (rest : List Byte), (∃ i, decode (b :: rest) = .ok i) ↔
    (b ∈ [0x03, 0x11, 0x12, 0x13, 0x20] ∧ rest.length = 0) ∨
    (b ∈ [0x14, 0x15, 0x32] ∧ rest.length = 1) ∨
    (b ∈ [0x02, 0x10] ∧ rest.length = 4) ∨
    (b = 0x01 ∧ rest.length = 5) ∨
    (b = 0x30 ∧ rest.length = 6) ∨
    (b = 0x31 ∧ 6 ≤ rest.length ∧ rest.length = 6 + (rest.getD 5 0).toNat)

/-- Operand values (R82): `i16` is little-endian two's complement, `flag` is bit 0 whatever the
reserved bits say, the `u8` operands are their bytes, the characters stand in order. -/
def Obligations.PacketOperandValues : Prop :=
  ∀ (xl xh yl yh a b c d : Byte),
    (∃ (x y : Coord) (on : Bool), decode [0x01, xl, xh, yl, yh, a] = .ok (.setPixel x y on) ∧
      decode [0x02, xl, xh, yl, yh] = .ok (.getPixel x y) ∧
      decode [0x30, xl, xh, yl, yh, a, b] = .ok (.drawChar x y a b) ∧
      decode [0x31, xl, xh, yl, yh, a, 2, b, c] = .ok (.drawString x y a [b, c]) ∧
      coordVal x = (if xh.toNat < 128 then ((xh.toNat * 256 + xl.toNat : Nat) : Int)
        else ((xh.toNat * 256 + xl.toNat : Nat) : Int) - 65536) ∧
      coordVal y = (if yh.toNat < 128 then ((yh.toNat * 256 + yl.toNat : Nat) : Int)
        else ((yh.toNat * 256 + yl.toNat : Nat) : Int) - 65536) ∧
      on = decide (a.toNat % 2 = 1)) ∧
    decode [0x10, a, b, c, d] = .ok (.init a b c (decide (d.toNat % 2 = 1))) ∧
    decode [0x14, a] = .ok (.contrast a) ∧
    decode [0x15, a] = .ok (.invert (decide (a.toNat % 2 = 1))) ∧
    decode [0x32, a] = .ok (.setFont a)

/-- Words written out from R84 and from the spec's own examples (R90, R121, R141, R149, R191). -/
def Obligations.ExamplePacketsDecode : Prop :=
  decode [0x01, 0x05, 0x00, 0x09, 0x00, 0x01] = .ok (.setPixel 5 9 true) ∧
  decode [0x02, 0xFF, 0xFF, 0x2C, 0x01] = .ok (.getPixel (-1) 300) ∧
  decode [0x03] = .ok .clear ∧
  decode [0x10, 0x80, 0x40, 0x3C, 0x00] = .ok (.init 128 64 0x3C false) ∧
  decode [0x14, 0x7F] = .ok (.contrast 0x7F) ∧
  decode [0x20] = .ok .showBuf ∧
  decode [0x30, 0xFC, 0xFF, 0x0A, 0x00, 0x03, 0x43] = .ok (.drawChar (-4) 10 3 0x43) ∧
  decode [0x31, 0x00, 0x00, 0x00, 0x00, 0x01, 0x02, 0x41, 0x42]
    = .ok (.drawString 0 0 1 [0x41, 0x42]) ∧
  decode [0x32, 0x01] = .ok (.setFont 1)

/-- R88 and R89: the result codes; every command but GET_PIXEL answers with the code alone, GET_PIXEL
with the code and a value byte, `0x01` or `0x00`, and `0x00` whenever the result is not `OK`. -/
def Obligations.ResponseBytes : Prop :=
  Result.code .ok = 0x00 ∧ Result.code .ioFail = 0x01 ∧ Result.code .invalidGeometry = 0x02 ∧
  Result.code .illegalState = 0x03 ∧ Result.code .illegalCommand = 0x04 ∧
  ∀ (i : Instr) (s t : State) (r : Response), exec i s = .next t →
    t.responses = s.responses ++ [r] →
    ((∀ x y, i ≠ .getPixel x y) → r.bytes = [r.result.code]) ∧
    (∀ x y, i = .getPixel x y → ∃ v, r.bytes = [r.result.code, v] ∧
      (v = 0x00 ∨ v = 0x01) ∧ (r.result ≠ .ok → v = 0x00))

/-! ### The step, reset and the common front (60 R200 to R211, 70 R230) -/

/-- A step takes the packet the host presents and runs the decoded command on the state with the
packet taken (R65, R80); with nothing presented the block stays as it is (R220). -/
def Obligations.StepRunsDecodedCommand : Prop :=
  (∀ (s : State) (p : List Byte) (rest : List Input) (i : Instr),
    s.inputs = .packet p :: rest → decode p = .ok i →
    step s = exec i { s with inputs := rest }) ∧
  ∀ s : State, s.inputs = [] → step s = .next s

/-- R205: an illegal packet completes with `ILLEGAL_COMMAND` and has no effect but that response; so
does SET_FONT of a font that is not wired, in either lifecycle state. The response is the code alone
(R89, VE5 to VE12); that it has the second byte `0x00` where the packet begins with GET_PIXEL's opcode
is the model's deduction (log 14). -/
def Obligations.IllegalPacketHasNoEffect : Prop :=
  (∀ (s : State) (p : List Byte) (rest : List Input), s.inputs = .packet p :: rest →
    (∀ i, decode p ≠ .ok i) →
    ∃ r : Response, step s = .next (({ s with inputs := rest } : State).respond r) ∧
      r.bytes = if p.head? = some 0x02 then [0x04, 0x00] else [0x04]) ∧
  ∀ (s : State) (id : Byte), s.cfg.nfonts ≤ id.toNat →
    exec (.setFont id) s = .next (s.respond ⟨.illegalCommand, none⟩)

/-- R230 between commands: the block is `UNINIT`, no transaction is issued, no response is given, and
the panel is left as it was. That `TRACE` is emptied is the model's reading (log 9). -/
def Obligations.ResetInputLeavesUninit : Prop :=
  ∀ (s : State) (rest : List Input), s.inputs = .reset :: rest →
    step s = .next { s with inputs := rest, life := .uninit, trace := [] }

/-- R230 while a command runs: a reset that comes before or during any transaction of an accepted
command, all earlier ones answered `ok`, abandons it without a response and leaves the block
`UNINIT`; a cut transaction leaves no value of the panel known. -/
def Obligations.ResetAbandonsRunningCommand : Prop :=
  ∀ (i : Instr) (s : State) (k : Nat),
    ((∃ w h a e, i = .init w h a e ∧ s.life = .uninit ∧ w ≠ 0 ∧ h ≠ 0 ∧
        w.toNat * ((h.toNat + 7) / 8) ≤ s.cfg.bufCap) ∨
      ((i = .deinit ∨ i = .powerOn ∨ i = .powerOff ∨ (∃ v, i = .contrast v) ∨
        (∃ f, i = .invert f) ∨ i = .showBuf) ∧ ∃ h, s.life = .ready h)) →
    k < maxTransactions i s → (∀ j < k, s.eventAt j = .ok) →
    s.eventAt k = .resetDuring ∨ s.eventAt k = .resetBefore →
    ∃ t, exec i s = .next t ∧ t.life = .uninit ∧ t.trace = [] ∧ t.responses = s.responses ∧
      t.cfg = s.cfg ∧ t.inputs = s.inputs ∧
      (s.eventAt k = .resetDuring → t.panel = Panel.unknown)

/-- R230 at the end of a command: a reset that finds a packet's command done and its response not yet
given leaves the block `UNINIT` and gives no response; inputs, answers of the transport and panel are
as the command left them. An illegal packet had no effect to leave. That `TRACE` is emptied is the
model's reading (log 9). -/
def Obligations.ResetBeforeResponse : Prop :=
  ∀ (s : State) (p : List Byte) (rest : List Input), s.inputs = .packetThenReset p :: rest →
    (∀ i t, decode p = .ok i → exec i { s with inputs := rest } = .next t →
      step s = .next { t with life := .uninit, trace := [], responses := s.responses }) ∧
    ((∀ i, decode p ≠ .ok i) →
      step s = .next { s with inputs := rest, life := .uninit, trace := [] })

/-- R230 and R219: a reset just after the last transaction of a SHOW, all of them answered `ok`: the
panel holds the whole buffer although no response was given. -/
def Obligations.ResetAfterShowKeepsPanel : Prop :=
  ∀ (s : State) (h : Handle) (rest : List Input), s.Inv → s.life = .ready h →
    s.inputs = .packetThenReset [0x20] :: rest →
    (∀ k < 2 * h.pages.toNat, s.eventAt k = .ok) →
    ∃ t, step s = .next t ∧ t.life = .uninit ∧ t.responses = s.responses ∧
      ∀ p < h.pages.toNat, ∀ x < h.width.toNat,
        t.panel.devByte p x = some (h.buf.read (p * h.width.toNat + x))

/-- What reset leaves (R39, R231): `UNINIT`, so no handle field has a value, and `TRACE` empty; the
reference sink's memory is unknown (R219). -/
def Obligations.ResetState : Prop :=
  State.reset.life = .uninit ∧ State.reset.trace = [] ∧
  (∀ p x, State.reset.panel.devByte p x = none) ∧ State.reset.panel.cursor = none

/-- The invariant holds at reset. -/
def Obligations.InvariantAtReset : Prop := State.reset.Inv

/-- Every step keeps the invariant: the handle's geometry and its derived `PAGES` (R22, R23), a wired
font (R26), the buffer's length and capacity (R34, R142), its padding bits (R33), and the canonical
form of the byte lists. -/
def Obligations.StepKeepsInvariant : Prop :=
  ∀ s t : State, s.Inv → step s = .next t → t.Inv

/-- No step writes the parameters, the font tables among them (R7, R30). -/
def Obligations.ParametersNeverWritten : Prop :=
  ∀ s t : State, step s = .next t → t.cfg = s.cfg

/-- R204: a legal packet whose command the lifecycle state does not allow completes with
`ILLEGAL_STATE`: no state change, no bus traffic. -/
def Obligations.IllegalStateHasNoEffect : Prop :=
  ∀ (i : Instr) (s : State), i.legal s.cfg.nfonts = true →
    ((∀ w h a e, i ≠ .init w h a e) → s.life = .uninit →
      ∃ v, exec i s = .next (s.respond ⟨.illegalState, v⟩)) ∧
    (∀ w h a e hd, i = .init w h a e → s.life = .ready hd →
      exec i s = .next (s.respond ⟨.illegalState, none⟩))

/-- The order of the checks (R209): the packet before the state, the state before the geometry, the
geometry before any bus traffic whatever the transport would answer. -/
def Obligations.CheckOrder : Prop :=
  (∀ (s : State) (id : Byte), s.cfg.nfonts ≤ id.toNat → s.life = .uninit →
    exec (.setFont id) s = .next (s.respond ⟨.illegalCommand, none⟩)) ∧
  (∀ (s : State) (hd : Handle) (w h a : Byte) (e : Bool), s.life = .ready hd → w = 0 ∨ h = 0 →
    exec (.init w h a e) s = .next (s.respond ⟨.illegalState, none⟩)) ∧
  (∀ (s : State) (w h a : Byte) (e : Bool) (ev : List BusEvent), s.life = .uninit → w = 0 ∨ h = 0 →
    exec (.init w h a e) { s with events := ev }
      = .next (({ s with events := ev } : State).respond ⟨.invalidGeometry, none⟩))

/-- Which command can complete with which result (R206): a command that answers next has delivered
exactly one response, or was abandoned by a reset (R230) and delivered none. That `TRACE` is empty in
the second case is the model's choice (log 9). -/
def Obligations.ResultTable : Prop :=
  ∀ (i : Instr) (s t : State), exec i s = .next t →
    (t.responses = s.responses ∧ t.life = .uninit ∧ t.trace = []) ∨
    ∃ r : Response, t.responses = s.responses ++ [r] ∧
      (r.result = .ioFail → (∃ w h a e, i = .init w h a e) ∨ i = .showBuf ∨
        (s.cfg.surfaceCosmeticErrors = true ∧ (i = .deinit ∨ i = .powerOn ∨ i = .powerOff ∨
          (∃ v, i = .contrast v) ∨ ∃ f, i = .invert f))) ∧
      (r.result = .invalidGeometry → s.life = .uninit ∧ ∃ w h a e, i = .init w h a e) ∧
      (r.result = .illegalState ↔ ((∃ h, s.life = .ready h) ∧ ∃ w h a e, i = .init w h a e) ∨
        (s.life = .uninit ∧ (∀ w h a e, i ≠ .init w h a e) ∧
          ∀ id, i = .setFont id → id.toNat < s.cfg.nfonts)) ∧
      (r.result = .illegalCommand ↔ ∃ id, i = .setFont id ∧ s.cfg.nfonts ≤ id.toNat)

/-- Termination (R245): a command whose transactions are all answered, at most as many as R245
counts, answers a next state; it never refuses; and it stops only at a transaction that the
transport never answers (U10). -/
def Obligations.CompletesIfTransportAnswers : Prop :=
  ∀ (i : Instr) (s : State),
    ((∀ k < maxTransactions i s, s.eventAt k ≠ .hang) → ∃ t, exec i s = .next t) ∧
    (∀ r, exec i s ≠ .refused r) ∧
    (∀ f, exec i s = .fault f →
      f = .busNeverAnswers ∧ ∃ k < maxTransactions i s, s.eventAt k = .hang)

/-- R221, U5 and U8: a packet puts the mark of a run gone wrong on a run that does not bear it exactly
when it is illegal or its command is not allowed in the lifecycle state. The packet is one that is
answered; that one abandoned by a reset before its response puts no mark is the model's choice (log 28)
and stands in no clause here. -/
def Obligations.GoesWrongExactlyOnMisuse : Prop :=
  ∀ (s t : State) (p : List Byte) (rest : List Input), s.inputs = .packet p :: rest →
    s.goneWrong = false → step s = .next t →
    (t.goneWrong = true ↔
      (∀ i, decode p ≠ .ok i) ∨
      ∃ i, decode p = .ok i ∧ (i.legal s.cfg.nfonts = false ∨
        (s.life = .uninit ∧ ∀ w h a e, i ≠ .init w h a e) ∨
        ((∃ h, s.life = .ready h) ∧ ∃ w h a e, i = .init w h a e)))

/-! ### Buffer model (40) -/

/-- R121: SET_PIXEL. -/
def Obligations.SetPixelResult : Prop :=
  ∀ (x y : Coord) (on : Bool) (s : State),
    (encode (.setPixel x y on)).head? = some 0x01 ∧ (encode (.setPixel x y on)).length = 6 ∧
    (s.life = .uninit →
      exec (.setPixel x y on) s = .next (s.respond ⟨.illegalState, none⟩)) ∧
    ∀ h, s.life = .ready h → ∃ m : Memory,
      exec (.setPixel x y on) s
        = .next ((s.withHandle { h with buf := m }).respond ⟨.ok, none⟩) ∧
      (0 ≤ x.toInt ∧ x.toInt < h.width.toNat ∧ 0 ≤ y.toInt ∧ y.toInt < h.height.toNat →
        ∀ a, m.read a =
          if a = y.toInt.toNat / 8 * h.width.toNat + x.toInt.toNat then
            (if on then h.buf.read a ||| (1#8 <<< (y.toInt.toNat % 8))
             else h.buf.read a &&& ~~~(1#8 <<< (y.toInt.toNat % 8)))
          else h.buf.read a) ∧
      (¬(0 ≤ x.toInt ∧ x.toInt < h.width.toNat ∧ 0 ≤ y.toInt ∧ y.toInt < h.height.toNat) →
        m = h.buf)

/-- R122: after SET_PIXEL the pixel reads back as it was set and every other pixel on the screen is
unchanged; off the screen every byte is unchanged. -/
def Obligations.SetPixelReadsBack : Prop :=
  ∀ (x y : Coord) (on : Bool) (s : State) (h : Handle), s.life = .ready h →
    ∃ (t : State) (h' : Handle), exec (.setPixel x y on) s = .next t ∧ t.life = .ready h' ∧
      (h.onScreen (coordVal x) (coordVal y) →
        h'.pix (coordVal x) (coordVal y) = on ∧
        ∀ X Y : Int, h.onScreen X Y → (X, Y) ≠ (coordVal x, coordVal y) →
          h'.pix X Y = h.pix X Y) ∧
      (¬h.onScreen (coordVal x) (coordVal y) → ∀ a, h'.buf.read a = h.buf.read a)

/-- R123 and R124: GET_PIXEL answers the pixel's bit, 0 off the screen, and changes nothing but the
record of responses. -/
def Obligations.GetPixelResult : Prop :=
  ∀ (x y : Coord) (s : State),
    (encode (.getPixel x y)).head? = some 0x02 ∧ (encode (.getPixel x y)).length = 5 ∧
    (s.life = .uninit →
      exec (.getPixel x y) s = .next (s.respond ⟨.illegalState, some 0x00⟩)) ∧
    ∀ h, s.life = .ready h →
      (0 ≤ x.toInt ∧ x.toInt < h.width.toNat ∧ 0 ≤ y.toInt ∧ y.toInt < h.height.toNat →
        exec (.getPixel x y) s = .next (s.respond ⟨.ok, some
          (if (h.buf.read (y.toInt.toNat / 8 * h.width.toNat + x.toInt.toNat)).getLsbD
              (y.toInt.toNat % 8) then 0x01 else 0x00)⟩)) ∧
      (¬(0 ≤ x.toInt ∧ x.toInt < h.width.toNat ∧ 0 ≤ y.toInt ∧ y.toInt < h.height.toNat) →
        exec (.getPixel x y) s = .next (s.respond ⟨.ok, some 0x00⟩))

/-- R125: CLEAR zeroes every byte of the buffer, padding included, and nothing else. -/
def Obligations.ClearResult : Prop :=
  ∀ s : State,
    encode .clear = [0x03] ∧
    (s.life = .uninit → exec .clear s = .next (s.respond ⟨.illegalState, none⟩)) ∧
    ∀ h, s.life = .ready h → ∃ m : Memory,
      exec .clear s = .next ((s.withHandle { h with buf := m }).respond ⟨.ok, none⟩) ∧
      (∀ a, m.read a = if a < h.width.toNat * h.pages.toNat then 0x00 else h.buf.read a) ∧
      (h.Inv s.cfg → m = [])

/-- R120: the commands of the buffer family leave `TRACE`, the lifecycle state and every handle
field but the buffer unchanged, and complete with `OK` for every operand once accepted. -/
def Obligations.BufferFamilyFrame : Prop :=
  ∀ (i : Instr) (s : State),
    ((∃ x y on, i = .setPixel x y on) ∨ (∃ x y, i = .getPixel x y) ∨ i = .clear) →
    ∃ t, exec i s = .next t ∧ t.trace = s.trace ∧ t.panel = s.panel ∧ t.cfg = s.cfg ∧
      t.inputs = s.inputs ∧ t.events = s.events ∧ t.busIndex = s.busIndex ∧
      (s.life = .uninit → t.life = .uninit) ∧
      ∀ h, s.life = .ready h → s.completedAs t .ok ∧
        ∃ m, t.life = .ready { h with buf := m } ∧ ((∃ x y, i = .getPixel x y) → m = h.buf)

/-- R52: `Pix(x, y)` of a pixel on the screen is bit `y mod 8` of byte `(y div 8)*WIDTH + x`, which lies
in the buffer (R54); and the mapping is a bijection onto the bits whose row is below `HEIGHT`, with
the inverse `(i mod WIDTH, (i div WIDTH)*8 + b)`. -/
def Obligations.PixelMappingInverse : Prop :=
  ∀ (cfg : Config) (h : Handle), h.Inv cfg →
    (∀ x y : Nat, h.onScreen x y →
      h.pix x y = (h.buf.read (y / 8 * h.width.toNat + x)).getLsbD (y % 8) ∧
      y / 8 * h.width.toNat + x < h.width.toNat * h.pages.toNat ∧
      (y / 8 * h.width.toNat + x) % h.width.toNat = x ∧
      (y / 8 * h.width.toNat + x) / h.width.toNat * 8 + y % 8 = y) ∧
    ∀ i b : Nat, i < h.width.toNat * h.pages.toNat → b < 8 →
      i / h.width.toNat * 8 + b < h.height.toNat →
      h.onScreen ((i % h.width.toNat : Nat) : Int) ((i / h.width.toNat * 8 + b : Nat) : Int) ∧
      (i / h.width.toNat * 8 + b) / 8 * h.width.toNat + i % h.width.toNat = i ∧
      (i / h.width.toNat * 8 + b) % 8 = b

/-! ### Device control (41) -/

/-- R142 and R202: a zero width or height, or a buffer larger than `BUF_CAP`, is rejected with no bus
traffic and no state change. -/
def Obligations.InitRejectsGeometry : Prop :=
  ∀ (w h a : Byte) (e : Bool) (s : State), s.life = .uninit →
    w = 0 ∨ h = 0 ∨ s.cfg.bufCap < w.toNat * ((h.toNat + 7) / 8) →
    exec (.init w h a e) s = .next (s.respond ⟨.invalidGeometry, none⟩)

/-- R141, success: with all fifteen transactions answered `ok`, INIT sends the INIT frames to its
`address` operand and leaves the handle its operands describe, `PAGES = ceil(HEIGHT/8)`, font 0 and
a buffer of zeros; of the panel's display memory nothing is known then (R235, U13). -/
def Obligations.InitSucceeds : Prop :=
  ∀ (w h a : Byte) (e : Bool) (s : State), s.life = .uninit → w ≠ 0 → h ≠ 0 →
    w.toNat * ((h.toNat + 7) / 8) ≤ s.cfg.bufCap → (∀ k < 15, s.eventAt k = .ok) →
    ∃ hd : Handle,
      exec (.init w h a e) s
        = .next (((s.afterSent a (initFrames s.cfg.wire w h e)).forgetPicture.withHandle hd).respond
            ⟨.ok, none⟩) ∧
      hd.width = w ∧ hd.height = h ∧ hd.pages.toNat = (h.toNat + 7) / 8 ∧ hd.address = a ∧
      hd.externalVcc = e ∧ hd.fontSel = 0 ∧ ∀ i, hd.buf.read i = 0x00

/-- R143: INIT stops at the first transaction that fails. The frames before it and that one are in
`TRACE`, no later one is; the result is `IO_FAIL`; the block stays `UNINIT`; no value of the panel is
known (U1). -/
def Obligations.InitStopsAtFirstFailure : Prop :=
  ∀ (w h a : Byte) (e : Bool) (s : State) (k : Nat) (f : BusFrame), s.life = .uninit →
    w ≠ 0 → h ≠ 0 → w.toNat * ((h.toNat + 7) / 8) ≤ s.cfg.bufCap →
    (initFrames s.cfg.wire w h e)[k]? = some f → (∀ j < k, s.eventAt j = .ok) →
    s.eventAt k = .fail →
    ∃ t, exec (.init w h a e) s = .next t ∧ t.life = .uninit ∧
      t.responses = s.responses ++ [⟨.ioFail, none⟩] ∧
      t.trace = s.trace ++ sentOk s.cfg.wire a ((initFrames s.cfg.wire w h e).take k)
        ++ [⟨a, frameBytes s.cfg.wire f, .fail⟩] ∧
      t.panel = Panel.unknown

/-- R97: the fifteen command frames that INIT sends, in this order, one transaction each. -/
def Obligations.InitFrameSequence : Prop :=
  ∀ (wd ht a : Byte) (e : Bool) (s : State), s.life = .uninit → wd ≠ 0 → ht ≠ 0 →
    wd.toNat * ((ht.toNat + 7) / 8) ≤ s.cfg.bufCap → (∀ k < 15, s.eventAt k = .ok) →
    ∃ t, exec (.init wd ht a e) s = .next t ∧ s.completedAs t .ok ∧
      t.trace = s.trace ++
        [⟨a, [s.cfg.wire.ctrlCmd, s.cfg.wire.displayOff], .ok⟩,
         ⟨a, [s.cfg.wire.ctrlCmd, s.cfg.wire.clockDiv, s.cfg.wire.clockDivVal], .ok⟩,
         ⟨a, [s.cfg.wire.ctrlCmd, s.cfg.wire.muxRatio, ht - 1], .ok⟩,
         ⟨a, [s.cfg.wire.ctrlCmd, s.cfg.wire.displayOffset, 0x00], .ok⟩,
         ⟨a, [s.cfg.wire.ctrlCmd, s.cfg.wire.startLine0], .ok⟩,
         ⟨a, [s.cfg.wire.ctrlCmd, s.cfg.wire.chargePump,
            if e then s.cfg.wire.cpExternal else s.cfg.wire.cpInternal], .ok⟩,
         ⟨a, [s.cfg.wire.ctrlCmd, s.cfg.wire.segRemap], .ok⟩,
         ⟨a, [s.cfg.wire.ctrlCmd, s.cfg.wire.comDir], .ok⟩,
         ⟨a, [s.cfg.wire.ctrlCmd, s.cfg.wire.comPins, comPinVal s.cfg.wire.comPinCfg wd ht], .ok⟩,
         ⟨a, [s.cfg.wire.ctrlCmd, s.cfg.wire.contrast, s.cfg.wire.contrastDefault], .ok⟩,
         ⟨a, [s.cfg.wire.ctrlCmd, s.cfg.wire.vcomDesel, s.cfg.wire.vcomLevel], .ok⟩,
         ⟨a, [s.cfg.wire.ctrlCmd, s.cfg.wire.entireOnResume], .ok⟩,
         ⟨a, [s.cfg.wire.ctrlCmd, s.cfg.wire.normal], .ok⟩,
         ⟨a, [s.cfg.wire.ctrlCmd, s.cfg.wire.memMode, s.cfg.wire.memModeHorizontal], .ok⟩,
         ⟨a, [s.cfg.wire.ctrlCmd, s.cfg.wire.displayOn], .ok⟩]

/-- R144 (e) and (f), in the reference sink (log 16): after a successful INIT the panel is on, in normal
video and at the default contrast, whatever it held before. The addressing mode and the multiplex
ratio are settings that log 24 adds to the sink; the one panel described is the target's (log 19).
Whatever an earlier SHOW sent, no byte of its display memory and no pixel is known (R235, U13). -/
def Obligations.PanelAfterInit : Prop :=
  ∀ (w h a : Byte) (e : Bool) (s : State), s.life = .uninit → w ≠ 0 → h ≠ 0 →
    w.toNat * ((h.toNat + 7) / 8) ≤ s.cfg.bufCap → (∀ k < 15, s.eventAt k = .ok) →
    ∃ t, exec (.init w h a e) s = .next t ∧ t.panel.target = some a ∧
      t.panel.power = some true ∧ t.panel.inverted = some false ∧
      t.panel.contrast = some s.cfg.wire.contrastDefault ∧
      t.panel.addressingMode = some s.cfg.wire.memModeHorizontal ∧
      t.panel.muxRatio = some (h - 1) ∧
      (∀ p x, t.panel.devByte p x = none) ∧ ∀ x y, t.panel.lit x y = none

/-- R145: DEINIT sends "display off" and gives up the handle whatever the transport answers; a
failure is reported only under `SURFACE_COSMETIC_ERRORS`. -/
def Obligations.DeinitResult : Prop :=
  ∀ s : State,
    encode .deinit = [0x11] ∧
    frameBytes s.cfg.wire (.command .displayOff)
      = [s.cfg.wire.ctrlCmd, s.cfg.wire.displayOff] ∧
    (s.life = .uninit → exec .deinit s = .next (s.respond ⟨.illegalState, none⟩)) ∧
    ∀ h, s.life = .ready h →
      (s.eventAt 0 = .ok → exec .deinit s = .next
        ((s.afterSent h.address [.command .displayOff]).release.respond ⟨.ok, none⟩)) ∧
      (s.eventAt 0 = .fail → exec .deinit s = .next
        ((s.dropEvent.record h.address (.command .displayOff) .fail).release.respond
          ⟨if s.cfg.surfaceCosmeticErrors then .ioFail else .ok, none⟩))

/-- R146 to R150 and R99: POWERON, POWEROFF, CONTRAST and INVERT are allowed in `READY` only, each
sends its one frame and writes no block state, and a failed transaction is reported only under
`SURFACE_COSMETIC_ERRORS`. -/
def Obligations.CosmeticResult : Prop :=
  ∀ (i : Instr) (packet frame : List Byte) (c : PanelCmd) (s : State),
    (i = .powerOn ∧ packet = [0x12] ∧ c = .displayOn ∧
        frame = [s.cfg.wire.ctrlCmd, s.cfg.wire.displayOn]) ∨
      (i = .powerOff ∧ packet = [0x13] ∧ c = .displayOff ∧
        frame = [s.cfg.wire.ctrlCmd, s.cfg.wire.displayOff]) ∨
      (∃ v, i = .contrast v ∧ packet = [0x14, v] ∧ c = .contrast v ∧
        frame = [s.cfg.wire.ctrlCmd, s.cfg.wire.contrast, v]) ∨
      (i = .invert true ∧ packet = [0x15, 0x01] ∧ c = .video true ∧
        frame = [s.cfg.wire.ctrlCmd, s.cfg.wire.inverse]) ∨
      (i = .invert false ∧ packet = [0x15, 0x00] ∧ c = .video false ∧
        frame = [s.cfg.wire.ctrlCmd, s.cfg.wire.normal]) →
    encode i = packet ∧ frameBytes s.cfg.wire (.command c) = frame ∧
    (s.life = .uninit → exec i s = .next (s.respond ⟨.illegalState, none⟩)) ∧
    ∀ h, s.life = .ready h →
      (s.eventAt 0 = .ok →
        exec i s = .next ((s.afterSent h.address [.command c]).respond ⟨.ok, none⟩)) ∧
      (s.eventAt 0 = .fail →
        exec i s = .next ((s.dropEvent.record h.address (.command c) .fail).respond
          ⟨if s.cfg.surfaceCosmeticErrors then .ioFail else .ok, none⟩))

/-- Only INIT and DEINIT write `STATE` (R140, R21), and only INIT, SET_PIXEL, CLEAR, DRAW_CHAR and
DRAW_STRING the buffer and only INIT and SET_FONT the font selection: every command that completes,
other than INIT and DEINIT, leaves the lifecycle state and the fixed handle fields as they were. -/
def Obligations.OnlyInitAndDeinitChangeLifecycle : Prop :=
  ∀ (i : Instr) (s t : State) (r : Result), exec i s = .next t → s.completedAs t r →
    (∀ w h a e, i ≠ .init w h a e) → i ≠ .deinit →
    (s.life = .uninit → t.life = .uninit) ∧
    ∀ h, s.life = .ready h → ∃ h', t.life = .ready h' ∧ h'.width = h.width ∧
      h'.height = h.height ∧ h'.pages = h.pages ∧ h'.address = h.address ∧
      h'.externalVcc = h.externalVcc ∧
      ((∀ id, i ≠ .setFont id) → h'.fontSel = h.fontSel) ∧
      ((i = .powerOn ∨ i = .powerOff ∨ (∃ v, i = .contrast v) ∨ (∃ f, i = .invert f) ∨
        i = .showBuf ∨ (∃ id, i = .setFont id) ∨ ∃ x y, i = .getPixel x y) → h'.buf = h.buf)

/-! ### Flush (42) -/

/-- R171, success: with every transaction answered `ok`, SHOW sends its `2*PAGES` frames in order to
`ADDRESS`, writes no block state and answers `OK`. -/
def Obligations.ShowSucceeds : Prop :=
  ∀ (s : State) (h : Handle), s.life = .ready h →
    (∀ k < 2 * h.pages.toNat, s.eventAt k = .ok) →
    exec .showBuf s = .next ((s.afterSent h.address (showFrames h)).respond ⟨.ok, none⟩)

/-- R95, R98, R171, R172: the transactions of a SHOW whose transactions are all answered `ok`: for
each page in ascending order the address frame, then the data frame with the page's bytes in
ascending index order; no page skipped or repeated. -/
def Obligations.ShowFrameSequence : Prop :=
  ∀ (s : State) (h : Handle), s.life = .ready h →
    (∀ k < 2 * h.pages.toNat, s.eventAt k = .ok) →
    ∃ t, exec .showBuf s = .next t ∧ s.completedAs t .ok ∧
      t.trace = s.trace ++ (List.range h.pages.toNat).flatMap fun p =>
        [⟨h.address, [s.cfg.wire.ctrlCmd, s.cfg.wire.setColAddr, 0x00, h.width - 1,
            s.cfg.wire.setPageAddr, BitVec.ofNat 8 p, BitVec.ofNat 8 p], .ok⟩,
         ⟨h.address, s.cfg.wire.ctrlData :: (List.range h.width.toNat).map fun x =>
            h.buf.read (p * h.width.toNat + x), .ok⟩]

/-- R173: SHOW stops at the first transaction that fails, whether of an address frame or of a data
frame: `IO_FAIL`, no later transaction, the handle and the buffer unchanged. -/
def Obligations.ShowStopsAtFirstFailure : Prop :=
  ∀ (s : State) (h : Handle) (k : Nat) (f : BusFrame), s.life = .ready h →
    (showFrames h)[k]? = some f → (∀ j < k, s.eventAt j = .ok) → s.eventAt k = .fail →
    exec .showBuf s = .next
      (((s.afterSent h.address ((showFrames h).take k)).dropEvent.record h.address f .fail).respond
        ⟨.ioFail, none⟩)

/-- U3 and R219 (c), R36, R62: the panel after a SHOW whose transaction `k`, of page `k/2`, failed. The
pages before it hold the bytes sent; the bytes of page `k/2` are unknown, whether its address frame
or its data frame failed, and so are the window, the cursor and every setting; every byte outside the columns
and pages sent is known as before, if the panel described was the target's (log 17, log 19). -/
def Obligations.PanelAfterFailedShow : Prop :=
  ∀ (s : State) (h : Handle) (k : Nat), s.Inv → s.life = .ready h → k < 2 * h.pages.toNat →
    (∀ j < k, s.eventAt j = .ok) → s.eventAt k = .fail →
    ∃ t, exec .showBuf s = .next t ∧ s.completedAs t .ioFail ∧
      (∀ p < k / 2, ∀ x < h.width.toNat,
        t.panel.devByte p x = some (h.buf.read (p * h.width.toNat + x))) ∧
      (∀ x < h.width.toNat, t.panel.devByte (k / 2) x = none) ∧
      (∀ p x, x < 256 → k / 2 < p ∨ h.width.toNat ≤ x → s.panel.target = some h.address →
        t.panel.devByte p x = s.panel.devByte p x) ∧
      { t.panel with target := none, dev := [] } = Panel.unknown

/-- R36, R62 and R210: after a failed transaction of DEINIT, POWERON, POWEROFF, CONTRAST or INVERT the
panel holds no value, whatever was known of it (for INIT: `InitStopsAtFirstFailure`). -/
def Obligations.FailedControlFrameLosesPanel : Prop :=
  ∀ (i : Instr) (s : State) (h : Handle), s.life = .ready h →
    i = .deinit ∨ i = .powerOn ∨ i = .powerOff ∨ (∃ v, i = .contrast v) ∨ (∃ f, i = .invert f) →
    s.eventAt 0 = .fail → ∃ t, exec i s = .next t ∧ t.panel = Panel.unknown

/-- R174: SHOW never writes the handle, neither on success nor on failure; `SURFACE_COSMETIC_ERRORS`
has no bearing on it (R173). -/
def Obligations.ShowNeverWritesHandle : Prop :=
  ∀ (s t : State) (r : Result), exec .showBuf s = .next t → s.completedAs t r →
    t.life = s.life ∧
    ∀ b, ∃ t', exec .showBuf { s with cfg := { s.cfg with surfaceCosmeticErrors := b } } = .next t' ∧
      t'.responses = t.responses ∧ t'.trace = t.trace

/-- R176: after CLEAR a successful SHOW sends `PAGES` data frames whose `WIDTH` payload bytes are all
`0x00`, whatever was drawn before. -/
def Obligations.ShowAfterClearSendsZeros : Prop :=
  ∀ (s : State) (h : Handle), s.Inv → s.life = .ready h →
    (∀ k < 2 * h.pages.toNat, s.eventAt k = .ok) →
    ∃ t u, exec .clear s = .next t ∧ exec .showBuf t = .next u ∧ s.completedAs t .ok ∧
      t.completedAs u .ok ∧
      u.trace = s.trace ++ (List.range h.pages.toNat).flatMap fun p =>
        [⟨h.address, [s.cfg.wire.ctrlCmd, s.cfg.wire.setColAddr, 0x00, h.width - 1,
            s.cfg.wire.setPageAddr, BitVec.ofNat 8 p, BitVec.ofNat 8 p], .ok⟩,
         ⟨h.address, s.cfg.wire.ctrlData :: List.replicate h.width.toNat 0x00, .ok⟩]

/-- The consequence of R219: after a SHOW that returned `OK` the panel's memory holds the buffer. -/
def Obligations.PanelHoldsBufferAfterShow : Prop :=
  ∀ (s t : State) (h : Handle), s.Inv → s.life = .ready h → exec .showBuf s = .next t →
    s.completedAs t .ok →
    ∀ p < h.pages.toNat, ∀ x < h.width.toNat,
      t.panel.devByte p x = some (h.buf.read (p * h.width.toNat + x))

/-- R219 (d): after such a SHOW on a panel that is on, each lit pixel is the buffer's, complemented
while the panel is inverted; on a panel that is off every pixel is dark. -/
def Obligations.LitPictureAfterShow : Prop :=
  ∀ (s t : State) (h : Handle), s.Inv → s.life = .ready h →
    exec .showBuf s = .next t → s.completedAs t .ok →
    ∀ x y : Nat, x < h.width.toNat → y < h.height.toNat →
      (∀ inv, t.panel.power = some true → t.panel.inverted = some inv →
        t.panel.lit x y = some (h.pix x y != inv)) ∧
      (t.panel.power = some false → t.panel.lit x y = some false)

/-! ### Rasterizer (43) -/

/-- R58: the font lookup, for a table of R100's form. -/
def Obligations.FontLookupRule : Prop :=
  ∀ (f : FontTable) (c : Byte), f.wf →
    (f.first.toNat ≤ c.toNat ∧ c.toNat ≤ f.last.toNat →
      ∃ col, fontLookup f c = some col ∧ col.length = 5 ∧
        ∀ k < 5, col[k]? = f.data[(c.toNat - f.first.toNat) * 5 + k]? ∧ (col[k]?).isSome = true) ∧
    (¬(f.first.toNat ≤ c.toNat ∧ c.toNat ≤ f.last.toNat) → fontLookup f c = none)

/-- R181 and R182: DRAW_CHAR answers `OK`, changes the buffer alone, and afterwards a pixel on the
screen is on exactly when it was on or `Painted` holds of it; a buffer bit that is no pixel of the
screen keeps its value. -/
def Obligations.DrawCharClosedForm : Prop :=
  ∀ (x y : Coord) (scale c : Byte) (s : State) (h : Handle), s.life = .ready h →
    ∃ m : Memory,
      exec (.drawChar x y scale c) s
        = .next ((s.withHandle { h with buf := m }).respond ⟨.ok, none⟩) ∧
      (∀ X Y : Int, h.onScreen X Y →
        (({ h with buf := m } : Handle).pix X Y = true ↔
          h.pix X Y = true ∨
            painted s.cfg h.fontSel x.toInt y.toInt scale.toNat c X Y)) ∧
      ∀ a b, (∀ X Y : Int, h.onScreen X Y → ¬(a = h.idx X Y ∧ b = bitOf Y)) →
        (m.read a).getLsbD b = (h.buf.read a).getLsbD b

/-- R183: the byte-lane form of DRAW_CHAR: bit `b` of lane `(X, P)` afterwards is the old bit or the
mask's, which is 1 exactly when `Painted(X, P*8 + b)` and `P*8 + b < HEIGHT`. -/
def Obligations.DrawCharLaneForm : Prop :=
  ∀ (x y : Coord) (scale c : Byte) (s : State) (h : Handle), s.Inv → s.life = .ready h →
    ∃ (t : State) (h' : Handle), exec (.drawChar x y scale c) s = .next t ∧ t.life = .ready h' ∧
      ∀ X P b : Nat, X < h.width.toNat → P < h.pages.toNat → b < 8 →
        ((h'.buf.read (P * h.width.toNat + X)).getLsbD b = true ↔
          (h.buf.read (P * h.width.toNat + X)).getLsbD b = true ∨
          (painted s.cfg h.fontSel x.toInt y.toInt scale.toNat c X ((P * 8 + b : Nat) : Int) ∧
            P * 8 + b < h.height.toNat))

/-- R184: DRAW_CHAR is idempotent and never turns a pixel off. -/
def Obligations.DrawCharIdempotentMonotone : Prop :=
  ∀ (x y : Coord) (scale c : Byte) (s : State) (h : Handle), s.Inv → s.life = .ready h →
    ∃ (t u : State) (h' : Handle), exec (.drawChar x y scale c) s = .next t ∧
      exec (.drawChar x y scale c) t = .next u ∧ u.life = t.life ∧ t.life = .ready h' ∧
      ∀ X Y : Int, h.pix X Y = true → h'.pix X Y = true

/-- R186: every pixel DRAW_CHAR turns on lies in the character's cell and on the screen. -/
def Obligations.DrawCharStaysInCell : Prop :=
  ∀ (x y : Coord) (scale c : Byte) (s t : State) (h h' : Handle), s.life = .ready h →
    exec (.drawChar x y scale c) s = .next t → t.life = .ready h' →
    ∀ X Y : Int, h'.pix X Y = true → h.pix X Y = false →
      inCell x.toInt y.toInt scale.toNat X Y ∧ h.onScreen X Y

/-- R185 (a), (b), (d) and R59: a code without a glyph, a glyph with no bit set in rows 0 to 6, and
scale 0 all draw nothing, with result `OK`. -/
def Obligations.BlankDrawingsDrawNothing : Prop :=
  ∀ (x y : Coord) (scale c : Byte) (s : State) (h : Handle), s.life = .ready h →
    (activeGlyph s.cfg h.fontSel c = none ∨ scale = 0 ∨
      ∃ col, activeGlyph s.cfg h.fontSel c = some col ∧ ∀ v ∈ col, v &&& 0x7F#8 = 0) →
    exec (.drawChar x y scale c) s = .next (s.respond ⟨.ok, none⟩)

/-- R187 and R188: DRAW_STRING answers `OK`, changes the buffer alone, and afterwards a pixel on the
screen is on exactly when it was on or it is painted by character `i` at the cursor
`x + i*6*scale`, computed exactly; a buffer bit that is no pixel of the screen keeps its value. -/
def Obligations.DrawStringClosedForm : Prop :=
  ∀ (x y : Coord) (scale : Byte) (str : List Byte) (s : State) (h : Handle), s.life = .ready h →
    ∃ m : Memory,
      exec (.drawString x y scale str) s
        = .next ((s.withHandle { h with buf := m }).respond ⟨.ok, none⟩) ∧
      (∀ X Y : Int, h.onScreen X Y →
        (({ h with buf := m } : Handle).pix X Y = true ↔
          h.pix X Y = true ∨
            ∃ (i : Nat) (c : Byte), str[i]? = some c ∧
              painted s.cfg h.fontSel (x.toInt + i * 6 * scale.toNat) y.toInt scale.toNat c X Y)) ∧
      ∀ a b, (∀ X Y : Int, h.onScreen X Y → ¬(a = h.idx X Y ∧ b = bitOf Y)) →
        (m.read a).getLsbD b = (h.buf.read a).getLsbD b

/-- R189 (g): where the next cursor is an `i16`, drawing a string is drawing its first character and
then the rest from that cursor. -/
def Obligations.DrawStringIsDrawChars : Prop :=
  ∀ (x x' y : Coord) (scale c : Byte) (str : List Byte) (s : State) (h : Handle),
    s.life = .ready h → x'.toInt = x.toInt + 6 * scale.toNat →
    ∃ t u v, exec (.drawChar x y scale c) s = .next t ∧
      exec (.drawString x' y scale str) t = .next u ∧
      exec (.drawString x y scale (c :: str)) s = .next v ∧ v.life = u.life ∧
      exec (.drawString x y scale []) s = .next (s.respond ⟨.ok, none⟩)

/-- R190: every pixel DRAW_STRING turns on lies in one of the characters' cells and on the screen, so
in `x <= X < x + (6*len - 1)*scale`. -/
def Obligations.DrawStringFootprint : Prop :=
  ∀ (x y : Coord) (scale : Byte) (str : List Byte) (s t : State) (h h' : Handle),
    s.life = .ready h → exec (.drawString x y scale str) s = .next t → t.life = .ready h' →
    ∀ X Y : Int, h'.pix X Y = true → h.pix X Y = false →
      h.onScreen X Y ∧
      (∃ i < str.length, inCell (x.toInt + i * 6 * scale.toNat) y.toInt scale.toNat X Y) ∧
      x.toInt ≤ X ∧ X < x.toInt + (6 * (str.length : Int) - 1) * scale.toNat

/-- R191: SET_FONT writes the selection alone: no pixel already drawn changes (R192). -/
def Obligations.SetFontResult : Prop :=
  ∀ (id : Byte) (s : State),
    encode (.setFont id) = [0x32, id] ∧
    (s.cfg.nfonts ≤ id.toNat →
      exec (.setFont id) s = .next (s.respond ⟨.illegalCommand, none⟩)) ∧
    (id.toNat < s.cfg.nfonts → s.life = .uninit →
      exec (.setFont id) s = .next (s.respond ⟨.illegalState, none⟩)) ∧
    ∀ h, id.toNat < s.cfg.nfonts → s.life = .ready h →
      exec (.setFont id) s
        = .next ((s.withHandle { h with fontSel := id }).respond ⟨.ok, none⟩)

/-- R180: no command of the rasterizer family issues a transaction; once accepted each completes with
`OK`; drawing changes the buffer alone, and only by turning pixels on; SET_FONT changes the selection
alone. -/
def Obligations.RasterFamilyFrame : Prop :=
  ∀ (i : Instr) (s : State),
    ((∃ x y sc c, i = .drawChar x y sc c) ∨ (∃ x y sc str, i = .drawString x y sc str) ∨
      ∃ id, i = .setFont id) →
    ∃ t, exec i s = .next t ∧ t.trace = s.trace ∧ t.panel = s.panel ∧ t.cfg = s.cfg ∧
      t.inputs = s.inputs ∧ t.events = s.events ∧ t.busIndex = s.busIndex ∧
      (s.life = .uninit → t.life = .uninit) ∧
      ∀ h, s.life = .ready h → ∃ h', t.life = .ready h' ∧
        (∀ id, i = .setFont id → h' = { h with fontSel := h'.fontSel } ∧
          (id.toNat < s.cfg.nfonts → s.completedAs t .ok)) ∧
        ((∀ id, i ≠ .setFont id) → s.completedAs t .ok ∧ h' = { h with buf := h'.buf } ∧
          ∀ a b, (h.buf.read a).getLsbD b = true → (h'.buf.read a).getLsbD b = true)

/-! ### The whole machine -/

/-- R36 and R37: no command reads `TRACE` or the panel: from two states that differ in these alone a
command ends the same way, leaves the same block and gives the same responses, and adds the same
entries to `TRACE`; or a reset abandons it in both, and then `TRACE` is empty in both, which is the
model's choice (log 9). -/
def Obligations.TraceAndPanelNeverRead : Prop :=
  ∀ (i : Instr) (s : State) (tr : List Transaction) (pn : Panel),
    match exec i s with
    | .next t => ∃ t', exec i { s with trace := tr, panel := pn } = .next t' ∧
        t'.life = t.life ∧ t'.responses = t.responses ∧ t'.cfg = t.cfg ∧ t'.inputs = t.inputs ∧
        t'.events = t.events ∧ t'.busIndex = t.busIndex ∧
        ((t.trace = [] ∧ t'.trace = []) ∨
          ∃ new, t.trace = s.trace ++ new ∧ t'.trace = tr ++ new)
    | .fault f => exec i { s with trace := tr, panel := pn } = .fault f
    | .refused r => exec i { s with trace := tr, panel := pn } = .refused r

/-- R24, R37, R93, R95, R245: a completed command only adds entries to `TRACE`, at most as many as
R245 counts; each goes to `ADDRESS`, for INIT to its operand; each frame begins with a control byte,
and only SHOW sends data frames. -/
def Obligations.BusTrafficRules : Prop :=
  ∀ (i : Instr) (s t : State) (r : Result), exec i s = .next t → s.completedAs t r →
    ∃ new, t.trace = s.trace ++ new ∧ new.length ≤ maxTransactions i s ∧
      ∀ e ∈ new,
        (∀ h, s.life = .ready h → e.target = h.address) ∧
        (∀ w h a v, i = .init w h a v → e.target = a) ∧
        (e.bytes.head? = some s.cfg.wire.ctrlCmd ∨
          (i = .showBuf ∧ e.bytes.head? = some s.cfg.wire.ctrlData))

/-- U10 and R61: an accepted command whose earlier transactions were answered `ok` and one of whose
transactions is never answered stops there: the one stuck state. -/
def Obligations.StuckAtUnansweredTransaction : Prop :=
  ∀ (i : Instr) (s : State) (k : Nat),
    ((∃ w h a e, i = .init w h a e ∧ s.life = .uninit ∧ w ≠ 0 ∧ h ≠ 0 ∧
        w.toNat * ((h.toNat + 7) / 8) ≤ s.cfg.bufCap) ∨
      ((i = .deinit ∨ i = .powerOn ∨ i = .powerOff ∨ (∃ v, i = .contrast v) ∨
        (∃ f, i = .invert f) ∨ i = .showBuf) ∧ ∃ h, s.life = .ready h)) →
    k < maxTransactions i s → (∀ j < k, s.eventAt j = .ok) → s.eventAt k = .hang →
    exec i s = .fault .busNeverAnswers
end

