-- ==== Sys2Proof/Laws/State.lean ====
section
/-! SUPPORT. One equation per field and update of the state, so that no proof unfolds a record update. -/

namespace Sys2Proof.Machine

/-! ### `State.respond` -/

@[simp] theorem State.respond_cfg (s : State) (r : Response) : (s.respond r).cfg = s.cfg := rfl
@[simp] theorem State.respond_life (s : State) (r : Response) : (s.respond r).life = s.life := rfl
@[simp] theorem State.respond_trace (s : State) (r : Response) :
    (s.respond r).trace = s.trace := rfl
@[simp] theorem State.respond_responses (s : State) (r : Response) :
    (s.respond r).responses = s.responses ++ [r] := rfl
@[simp] theorem State.respond_inputs (s : State) (r : Response) :
    (s.respond r).inputs = s.inputs := rfl
@[simp] theorem State.respond_events (s : State) (r : Response) :
    (s.respond r).events = s.events := rfl
@[simp] theorem State.respond_busIndex (s : State) (r : Response) :
    (s.respond r).busIndex = s.busIndex := rfl
@[simp] theorem State.respond_panel (s : State) (r : Response) :
    (s.respond r).panel = s.panel := rfl

/-! ### `State.withHandle` -/

@[simp] theorem State.withHandle_cfg (s : State) (h : Handle) : (s.withHandle h).cfg = s.cfg := rfl
@[simp] theorem State.withHandle_life (s : State) (h : Handle) :
    (s.withHandle h).life = .ready h := rfl
@[simp] theorem State.withHandle_trace (s : State) (h : Handle) :
    (s.withHandle h).trace = s.trace := rfl
@[simp] theorem State.withHandle_responses (s : State) (h : Handle) :
    (s.withHandle h).responses = s.responses := rfl
@[simp] theorem State.withHandle_inputs (s : State) (h : Handle) :
    (s.withHandle h).inputs = s.inputs := rfl
@[simp] theorem State.withHandle_events (s : State) (h : Handle) :
    (s.withHandle h).events = s.events := rfl
@[simp] theorem State.withHandle_busIndex (s : State) (h : Handle) :
    (s.withHandle h).busIndex = s.busIndex := rfl
@[simp] theorem State.withHandle_panel (s : State) (h : Handle) :
    (s.withHandle h).panel = s.panel := rfl

/-! ### `State.hardReset` -/

@[simp] theorem State.hardReset_cfg (s : State) : (s.hardReset).cfg = s.cfg := rfl
@[simp] theorem State.hardReset_life (s : State) : (s.hardReset).life = .uninit := rfl
@[simp] theorem State.hardReset_trace (s : State) : (s.hardReset).trace = [] := rfl
@[simp] theorem State.hardReset_responses (s : State) : (s.hardReset).responses = s.responses := rfl
@[simp] theorem State.hardReset_inputs (s : State) : (s.hardReset).inputs = s.inputs := rfl
@[simp] theorem State.hardReset_events (s : State) : (s.hardReset).events = s.events := rfl
@[simp] theorem State.hardReset_busIndex (s : State) : (s.hardReset).busIndex = s.busIndex := rfl
@[simp] theorem State.hardReset_panel (s : State) : (s.hardReset).panel = s.panel := rfl

/-! ### `State.cutReset` -/

@[simp] theorem State.cutReset_cfg (s : State) : s.cutReset.cfg = s.cfg := rfl
@[simp] theorem State.cutReset_life (s : State) : s.cutReset.life = .uninit := rfl
@[simp] theorem State.cutReset_trace (s : State) : s.cutReset.trace = [] := rfl
@[simp] theorem State.cutReset_responses (s : State) : s.cutReset.responses = s.responses := rfl
@[simp] theorem State.cutReset_inputs (s : State) : s.cutReset.inputs = s.inputs := rfl
@[simp] theorem State.cutReset_events (s : State) : s.cutReset.events = s.events := rfl
@[simp] theorem State.cutReset_busIndex (s : State) : s.cutReset.busIndex = s.busIndex := rfl
@[simp] theorem State.cutReset_panel (s : State) : s.cutReset.panel = Panel.unknown := rfl

/-! ### `State.abandon` -/

@[simp] theorem State.abandon_cfg (s : State) (before : List Response) :
    (s.abandon before).cfg = s.cfg := rfl
@[simp] theorem State.abandon_life (s : State) (before : List Response) :
    (s.abandon before).life = .uninit := rfl
@[simp] theorem State.abandon_trace (s : State) (before : List Response) :
    (s.abandon before).trace = [] := rfl
@[simp] theorem State.abandon_responses (s : State) (before : List Response) :
    (s.abandon before).responses = before := rfl
@[simp] theorem State.abandon_inputs (s : State) (before : List Response) :
    (s.abandon before).inputs = s.inputs := rfl
@[simp] theorem State.abandon_events (s : State) (before : List Response) :
    (s.abandon before).events = s.events := rfl
@[simp] theorem State.abandon_busIndex (s : State) (before : List Response) :
    (s.abandon before).busIndex = s.busIndex := rfl
@[simp] theorem State.abandon_panel (s : State) (before : List Response) :
    (s.abandon before).panel = s.panel := rfl

/-! ### `State.forgetPicture` -/

@[simp] theorem State.forgetPicture_cfg (s : State) :
    (s.forgetPicture).cfg = s.cfg := rfl
@[simp] theorem State.forgetPicture_life (s : State) :
    (s.forgetPicture).life = s.life := rfl
@[simp] theorem State.forgetPicture_trace (s : State) :
    (s.forgetPicture).trace = s.trace := rfl
@[simp] theorem State.forgetPicture_responses (s : State) :
    (s.forgetPicture).responses = s.responses := rfl
@[simp] theorem State.forgetPicture_inputs (s : State) :
    (s.forgetPicture).inputs = s.inputs := rfl
@[simp] theorem State.forgetPicture_events (s : State) :
    (s.forgetPicture).events = s.events := rfl
@[simp] theorem State.forgetPicture_busIndex (s : State) :
    (s.forgetPicture).busIndex = s.busIndex := rfl
@[simp] theorem State.forgetPicture_panel (s : State) :
    (s.forgetPicture).panel = s.panel.forget none := rfl

/-! ### `State.release` -/

@[simp] theorem State.release_cfg (s : State) : s.release.cfg = s.cfg := rfl
@[simp] theorem State.release_life (s : State) : s.release.life = .uninit := rfl
@[simp] theorem State.release_trace (s : State) : s.release.trace = s.trace := rfl
@[simp] theorem State.release_responses (s : State) : s.release.responses = s.responses := rfl
@[simp] theorem State.release_inputs (s : State) : s.release.inputs = s.inputs := rfl
@[simp] theorem State.release_events (s : State) : s.release.events = s.events := rfl
@[simp] theorem State.release_busIndex (s : State) : s.release.busIndex = s.busIndex := rfl
@[simp] theorem State.release_panel (s : State) : s.release.panel = s.panel := rfl

/-! ### `State.dropEvent` -/

@[simp] theorem State.dropEvent_cfg (s : State) : (s.dropEvent).cfg = s.cfg := rfl
@[simp] theorem State.dropEvent_life (s : State) : (s.dropEvent).life = s.life := rfl
@[simp] theorem State.dropEvent_trace (s : State) : (s.dropEvent).trace = s.trace := rfl
@[simp] theorem State.dropEvent_responses (s : State) : (s.dropEvent).responses = s.responses := rfl
@[simp] theorem State.dropEvent_inputs (s : State) : (s.dropEvent).inputs = s.inputs := rfl
@[simp] theorem State.dropEvent_events (s : State) : (s.dropEvent).events = s.events.tail := rfl
@[simp] theorem State.dropEvent_busIndex (s : State) :
    (s.dropEvent).busIndex = s.busIndex + 1 := rfl
@[simp] theorem State.dropEvent_panel (s : State) : (s.dropEvent).panel = s.panel := rfl

/-! ### `State.record` -/

@[simp] theorem State.record_cfg (s : State) (a : Byte) (f : BusFrame) (o : BusOutcome) :
    (s.record a f o).cfg = s.cfg := rfl
@[simp] theorem State.record_life (s : State) (a : Byte) (f : BusFrame) (o : BusOutcome) :
    (s.record a f o).life = s.life := rfl
@[simp] theorem State.record_trace (s : State) (a : Byte) (f : BusFrame) (o : BusOutcome) :
    (s.record a f o).trace = s.trace ++ [⟨a, frameBytes s.cfg.wire f, o⟩] := rfl
@[simp] theorem State.record_responses (s : State) (a : Byte) (f : BusFrame) (o : BusOutcome) :
    (s.record a f o).responses = s.responses := rfl
@[simp] theorem State.record_inputs (s : State) (a : Byte) (f : BusFrame) (o : BusOutcome) :
    (s.record a f o).inputs = s.inputs := rfl
@[simp] theorem State.record_events (s : State) (a : Byte) (f : BusFrame) (o : BusOutcome) :
    (s.record a f o).events = s.events := rfl
@[simp] theorem State.record_busIndex (s : State) (a : Byte) (f : BusFrame) (o : BusOutcome) :
    (s.record a f o).busIndex = s.busIndex := rfl

/-! ### `State.afterSent` -/

@[simp] theorem State.afterSent_cfg (s : State) (a : Byte) (fs : List BusFrame) :
    (s.afterSent a fs).cfg = s.cfg := rfl
@[simp] theorem State.afterSent_life (s : State) (a : Byte) (fs : List BusFrame) :
    (s.afterSent a fs).life = s.life := rfl
@[simp] theorem State.afterSent_trace (s : State) (a : Byte) (fs : List BusFrame) :
    (s.afterSent a fs).trace = s.trace ++ sentOk s.cfg.wire a fs := rfl
@[simp] theorem State.afterSent_responses (s : State) (a : Byte) (fs : List BusFrame) :
    (s.afterSent a fs).responses = s.responses := rfl
@[simp] theorem State.afterSent_inputs (s : State) (a : Byte) (fs : List BusFrame) :
    (s.afterSent a fs).inputs = s.inputs := rfl
@[simp] theorem State.afterSent_events (s : State) (a : Byte) (fs : List BusFrame) :
    (s.afterSent a fs).events = s.events.drop fs.length := rfl
@[simp] theorem State.afterSent_busIndex (s : State) (a : Byte) (fs : List BusFrame) :
    (s.afterSent a fs).busIndex = s.busIndex + fs.length := rfl
@[simp] theorem State.afterSent_panel (s : State) (a : Byte) (fs : List BusFrame) :
    (s.afterSent a fs).panel = fs.foldl (fun d f => (d.at a).accept s.cfg.wire f) s.panel := rfl

@[simp] theorem State.record_ok_panel (s : State) (a : Byte) (f : BusFrame) :
    (s.record a f .ok).panel = (s.panel.at a).accept s.cfg.wire f := rfl
@[simp] theorem State.record_fail_panel (s : State) (a : Byte) (f : BusFrame) :
    (s.record a f .fail).panel = (s.panel.at a).lose f := rfl

/-- What a packet that a reset abandons comes to, where its command answers. -/
theorem runThenReset_next {p : List Byte} {s t : State} (h : runPacket p s = .next t) :
    runThenReset p s = .next (t.abandon s.responses) := by
  rw [runThenReset, h]

/-- The reset state has no buffer that could miss the canonical form, and its panel lists nothing. -/
theorem State.reset_memory_wf :
    (∀ h, State.reset.life = .ready h → Memory.wf h.buf) ∧ Cells.sorted State.reset.panel.dev :=
  ⟨fun _ h => Lifecycle.noConfusion h, List.Pairwise.nil⟩

end Sys2Proof.Machine
end

