-- ==== Sys2Proof/Laws/Memory.lean ====
section
/-! SUPPORT. Laws of the byte lists (`Sys2Proof/Machine/Cells.lean`) and of the pixel buffer: a read after
a write, and that every operation keeps the canonical form. -/

namespace Sys2Proof.Machine

/-! ### Reading after an update -/

@[simp] theorem Cells.get_nil (a : Nat) : Cells.get [] a = none := rfl

theorem Cells.get_put (m : List Host.Cell) (a b : Nat) (v : Byte) :
    Cells.get (Cells.put m a v) b = if a = b then some v else Cells.get m b := by
  induction m with
  | nil => simp [Cells.put, Cells.get]
  | cons c m ih =>
    simp only [Cells.put]
    split_ifs with h1 h2 h3 <;> simp_all [Cells.get]

theorem Cells.get_filter (m : List Host.Cell) (p : Nat → Bool) (b : Nat) :
    Cells.get (m.filter fun c => p c.1) b = if p b then Cells.get m b else none := by
  induction m with
  | nil => simp
  | cons c m ih =>
    by_cases hc : p c.1 <;> by_cases hb : c.1 = b <;> simp_all [Cells.get]

theorem Cells.get_erase (m : List Host.Cell) (a b : Nat) :
    Cells.get (Cells.erase m a) b = if a = b then none else Cells.get m b := by
  have h := Cells.get_filter m (fun k => decide (k ≠ a)) b
  by_cases hab : a = b
  · subst hab
    simpa [Cells.erase] using h
  · have hba : b ≠ a := fun h => hab h.symm
    simpa [Cells.erase, hab, hba] using h

theorem Cells.get_putAll (vs : List Byte) (m : List Host.Cell) (a b : Nat) :
    Cells.get (Cells.putAll m a vs) b
      = if h : a ≤ b ∧ b < a + vs.length then some (vs[b - a]'(by omega)) else Cells.get m b := by
  induction vs generalizing m a with
  | nil =>
    have : ¬(a ≤ b ∧ b < a + ([] : List Byte).length) := by
      simp only [List.length_nil]; omega
    rw [dif_neg this]
    rfl
  | cons v vs ih =>
    rw [Cells.putAll, ih, Cells.get_put]
    simp only [List.length_cons]
    by_cases hab : a = b
    · subst hab
      simp
    · by_cases hin : a + 1 ≤ b ∧ b < a + 1 + vs.length
      · have hin' : a ≤ b ∧ b < a + (vs.length + 1) := by omega
        rw [dif_pos hin, dif_pos hin']
        have : b - a = (b - (a + 1)) + 1 := by omega
        simp [this]
      · have hin' : ¬(a ≤ b ∧ b < a + (vs.length + 1)) := by omega
        rw [dif_neg hin, dif_neg hin', if_neg hab]

@[simp] theorem Memory.read_nil (a : Nat) : Memory.read [] a = 0x00 := rfl

/-- A read after a write (`R9`, MemRead and MemWrite of one byte). -/
theorem Memory.read_write (m : Memory) (a b : Nat) (v : Byte) :
    (m.write a v).read b = if a = b then v else m.read b := by
  unfold Memory.read Memory.write
  split_ifs with h1 h2 <;> simp_all [Cells.get_put, Cells.get_erase]

theorem Memory.read_zeroBytes (m : Memory) (n b : Nat) :
    (zeroBytes m n).read b = if b < n then 0x00 else m.read b := by
  induction n with
  | zero => simp [zeroBytes]
  | succ n ih =>
    have : zeroBytes m (n + 1) = (zeroBytes m n).write n 0x00 := by
      simp [zeroBytes, List.range_succ]
    rw [this, Memory.read_write, ih]
    split_ifs <;> first | rfl | omega

@[simp] theorem memRead_length (m : Memory) (a n : Nat) : (memRead m a n).length = n := by
  simp [memRead]

theorem memRead_getElem (m : Memory) (a n k : Nat) (hk : k < (memRead m a n).length) :
    (memRead m a n)[k] = m.read (a + k) := by
  simp [memRead]

/-! ### The canonical form -/

theorem Cells.mem_put {m : List Host.Cell} {a : Nat} {v : Byte} {c : Host.Cell}
    (h : c ∈ Cells.put m a v) : c = (a, v) ∨ c ∈ m := by
  induction m with
  | nil => simpa [Cells.put] using h
  | cons d m ih =>
    simp only [Cells.put] at h
    split_ifs at h with h1 h2
    · simpa using h
    · rcases List.mem_cons.mp h with h | h
      · exact .inl h
      · exact .inr (List.mem_cons_of_mem _ h)
    · rcases List.mem_cons.mp h with h | h
      · exact .inr (by simp [h])
      · rcases ih h with h | h
        · exact .inl h
        · exact .inr (List.mem_cons_of_mem _ h)

theorem Cells.sorted_put {m : List Host.Cell} (a : Nat) (v : Byte) (h : Cells.sorted m) :
    Cells.sorted (Cells.put m a v) := by
  induction m with
  | nil => simp [Cells.put]
  | cons c m ih =>
    obtain ⟨hc, hm⟩ := List.pairwise_cons.mp h
    simp only [Cells.put]
    split_ifs with h1 h2
    · refine List.pairwise_cons.mpr ⟨fun d hd => ?_, h⟩
      rcases List.mem_cons.mp hd with rfl | hd
      · exact h1
      · exact lt_trans h1 (hc d hd)
    · subst h2
      exact List.pairwise_cons.mpr ⟨hc, hm⟩
    · refine List.pairwise_cons.mpr ⟨fun d hd => ?_, ih hm⟩
      rcases Cells.mem_put hd with rfl | hd
      · simp only; omega
      · exact hc d hd

theorem Cells.sorted_filter {m : List Host.Cell} (p : Host.Cell → Bool) (h : Cells.sorted m) :
    Cells.sorted (m.filter p) := List.Pairwise.filter p h

theorem Cells.sorted_putAll (vs : List Byte) {m : List Host.Cell} (a : Nat) (h : Cells.sorted m) :
    Cells.sorted (Cells.putAll m a vs) := by
  induction vs generalizing m a with
  | nil => exact h
  | cons v vs ih => exact ih (a + 1) (Cells.sorted_put a v h)

/-- Every buffer write keeps the canonical form. -/
theorem Memory.wf_write {m : Memory} (a : Nat) (v : Byte) (h : m.wf) : (m.write a v).wf := by
  obtain ⟨hs, hz⟩ := h
  unfold Memory.write
  split_ifs with hv
  · exact ⟨Cells.sorted_filter _ hs, fun c hc => hz c (List.mem_filter.mp hc).1⟩
  · refine ⟨Cells.sorted_put a v hs, fun c hc => ?_⟩
    rcases Cells.mem_put hc with rfl | hc
    · exact hv
    · exact hz c hc

/-- A write below `n` lists nothing at or above `n` that was not listed there. -/
theorem Memory.write_below {m : Memory} {a n : Nat} (v : Byte) (ha : a < n)
    (h : ∀ c ∈ m, c.1 < n) : ∀ c ∈ m.write a v, c.1 < n := by
  intro c hc
  unfold Memory.write at hc
  split_ifs at hc
  · exact h c (List.mem_filter.mp hc).1
  · rcases Cells.mem_put hc with rfl | hc
    · exact ha
    · exact h c hc

theorem Memory.wf_zeroBytes {m : Memory} (n : Nat) (h : m.wf) : (zeroBytes m n).wf := by
  induction n with
  | zero => simpa [zeroBytes] using h
  | succ n ih =>
    have : zeroBytes m (n + 1) = (zeroBytes m n).write n 0x00 := by
      simp [zeroBytes, List.range_succ]
    rw [this]
    exact Memory.wf_write _ _ ih

theorem Memory.zeroBytes_below {m : Memory} (n k : Nat) (hk : k ≤ n) (h : ∀ c ∈ m, c.1 < n) :
    ∀ c ∈ zeroBytes m k, c.1 < n := by
  induction k with
  | zero => simpa [zeroBytes] using h
  | succ k ih =>
    have : zeroBytes m (k + 1) = (zeroBytes m k).write k 0x00 := by
      simp [zeroBytes, List.range_succ]
    rw [this]
    exact Memory.write_below _ (by omega) (ih (by omega))

/-- In the canonical form a listed byte is what is read, so equal reads are equal lists. -/
theorem Memory.mem_iff_read {m : Memory} (h : m.wf) (c : Host.Cell) :
    c ∈ m ↔ m.read c.1 = c.2 ∧ c.2 ≠ 0 := by
  induction m with
  | nil =>
    simp only [List.not_mem_nil, false_iff, not_and, not_not]
    exact fun h => h.symm
  | cons d m ih =>
    obtain ⟨hs, hz⟩ := h
    obtain ⟨hd, hm⟩ := List.pairwise_cons.mp hs
    have ih := ih ⟨hm, fun c hc => hz c (List.mem_cons_of_mem _ hc)⟩
    have hd0 := hz d List.mem_cons_self
    by_cases hdc : d.1 = c.1
    · have hnot : c ∉ m := fun hc => by have := hd c hc; omega
      simp only [List.mem_cons, hnot, or_false, Memory.read, Cells.get, hdc, if_true,
        Option.getD_some]
      constructor
      · rintro rfl; exact ⟨rfl, hd0⟩
      · rintro ⟨h, -⟩; exact (Prod.ext hdc h).symm
    · have hne : c ≠ d := fun h => hdc (by rw [h])
      have hread : Memory.read (d :: m) c.1 = Memory.read m c.1 := by
        simp [Memory.read, Cells.get, hdc]
      rw [hread, List.mem_cons, ← ih]
      simp [hne]

/-- Equal reads, equal canonical lists. -/
theorem Memory.ext {m n : Memory} (hm : m.wf) (hn : n.wf) (h : ∀ a, m.read a = n.read a) : m = n := by
  refine List.Perm.eq_of_pairwise (le := fun c d : Host.Cell => c.1 < d.1) ?_ hm.1 hn.1 ?_
  · intro a b _ _ h1 h2; omega
  · have nodup : ∀ {l : Memory}, l.wf → l.Nodup := fun hl =>
      hl.1.imp fun {a b} hab heq => by rw [heq] at hab; exact lt_irrefl _ hab
    exact (List.perm_ext_iff_of_nodup (nodup hm) (nodup hn)).mpr fun c => by
      rw [Memory.mem_iff_read hm, Memory.mem_iff_read hn, h]

end Sys2Proof.Machine
end

