-- ==== Sys2Proof/Laws/Bus.lean ====
section
/-! SUPPORT. What a sequence of transactions can do (`spec/20_memory.md` R61, R69; `spec/41_device_control.md`
R143; `spec/42_flush_show.md` R173): `sendAll` said once, from the transport's side and from its end. -/

namespace Sys2Proof.Machine

theorem State.nextEvent_eq (s : State) : s.nextEvent = s.eventAt 0 := by
  unfold State.nextEvent State.eventAt
  cases s.events <;> rfl

theorem State.eventAt_dropEvent (s : State) (k : Nat) :
    s.dropEvent.eventAt k = s.eventAt (k + 1) := by
  unfold State.eventAt State.dropEvent
  cases s.events with
  | nil => simp; congr 1; omega
  | cons a as => simp; congr 2; omega

@[simp] theorem State.eventAt_record (s : State) (a : Byte) (f : BusFrame) (o : BusOutcome) (k : Nat) :
    (s.record a f o).eventAt k = s.eventAt k := rfl

@[simp] theorem State.afterSent_nil (s : State) (a : Byte) : s.afterSent a [] = s := by
  simp [State.afterSent, sentOk]

/-- The first of the frames, then the others. -/
theorem State.afterSent_cons (s : State) (a : Byte) (f : BusFrame) (fs : List BusFrame) :
    s.afterSent a (f :: fs) = (s.dropEvent.record a f .ok).afterSent a fs := by
  simp [State.afterSent, State.dropEvent, State.record, sentOk]
  omega

theorem State.eventAt_afterSent (s : State) (a : Byte) (fs : List BusFrame) (k : Nat) :
    (s.afterSent a fs).eventAt k = s.eventAt (k + fs.length) := by
  induction fs generalizing s with
  | nil => simp
  | cons f fs ih =>
    rw [State.afterSent_cons, ih, State.eventAt_record, State.eventAt_dropEvent, List.length_cons]
    rfl

theorem busWrite_eq (a : Byte) (f : BusFrame) (s : State) :
    busWrite a f s = match s.eventAt 0 with
      | .ok => .ok (s.afterSent a [f])
      | .fail => .fail (s.dropEvent.record a f .fail)
      | .hang => .stuck
      | .resetBefore => .reset s.dropEvent.hardReset
      | .resetDuring => .reset s.dropEvent.cutReset := by
  cases he : s.eventAt 0 <;>
    simp only [busWrite, State.nextEvent_eq, he, State.afterSent_cons, State.afterSent_nil]

/-- How a sequence of transactions can end where the first that is not answered `ok` is number
`fs1.length`, for the frame `f`. -/
theorem sendAll_at (a : Byte) (fs1 : List BusFrame) (f : BusFrame) (fs2 : List BusFrame) (s : State)
    (hok : ∀ j < fs1.length, s.eventAt j = .ok) :
    sendAll a (fs1 ++ f :: fs2) s = match s.eventAt fs1.length with
      | .ok => sendAll a fs2 (s.afterSent a (fs1 ++ [f]))
      | .fail => .fail ((s.afterSent a fs1).dropEvent.record a f .fail)
      | .hang => .stuck
      | .resetBefore => .reset (s.afterSent a fs1).dropEvent.hardReset
      | .resetDuring => .reset (s.afterSent a fs1).dropEvent.cutReset := by
  induction fs1 generalizing s with
  | nil =>
    rw [List.nil_append, List.nil_append, List.length_nil, State.afterSent_nil, sendAll, busWrite_eq]
    cases s.eventAt 0 <;> rfl
  | cons g fs1 ih =>
    have h0 : s.eventAt 0 = .ok := hok 0 (by simp)
    rw [List.cons_append, sendAll, busWrite_eq, h0]
    have := ih (s.afterSent a [g]) (fun j hj => by
      rw [State.eventAt_afterSent]; exact hok (j + 1) (by simpa using hj))
    rw [State.eventAt_afterSent] at this
    simp only [State.afterSent_cons, State.afterSent_nil, List.length_singleton] at this
    simp only [State.afterSent_cons, State.afterSent_nil, List.length_cons, List.cons_append]
    exact this

/-- All answered `ok`. -/
theorem sendAll_ok (a : Byte) (fs : List BusFrame) (s : State)
    (hok : ∀ j < fs.length, s.eventAt j = .ok) : sendAll a fs s = .ok (s.afterSent a fs) := by
  induction fs generalizing s with
  | nil => simp [sendAll]
  | cons f fs ih =>
    have h0 : s.eventAt 0 = .ok := hok 0 (by simp)
    have := ih (s.afterSent a [f]) (fun j hj => by
      rw [State.eventAt_afterSent]; exact hok (j + 1) (by simpa using hj))
    rw [sendAll, busWrite_eq, h0]
    simp only [State.afterSent_cons, State.afterSent_nil] at this ⊢
    exact this

/-- Everything a sequence of transactions can do, by the number of the first that is not answered
`ok`. -/
theorem sendAll_cases (a : Byte) (fs : List BusFrame) (s : State) :
    ((∀ j < fs.length, s.eventAt j = .ok) ∧ sendAll a fs s = .ok (s.afterSent a fs)) ∨
    ∃ fs1 f fs2, fs = fs1 ++ f :: fs2 ∧ (∀ j < fs1.length, s.eventAt j = .ok) ∧
      ((s.eventAt fs1.length = .fail ∧
          sendAll a fs s = .fail ((s.afterSent a fs1).dropEvent.record a f .fail)) ∨
       (s.eventAt fs1.length = .hang ∧ sendAll a fs s = .stuck) ∨
       (s.eventAt fs1.length = .resetBefore ∧
          sendAll a fs s = .reset (s.afterSent a fs1).dropEvent.hardReset) ∨
       (s.eventAt fs1.length = .resetDuring ∧ sendAll a fs s = .reset (s.afterSent a fs1).dropEvent.cutReset)) := by
  by_cases hall : ∀ j < fs.length, s.eventAt j = .ok
  · exact .inl ⟨hall, sendAll_ok a fs s hall⟩
  · right
    have hex : ∃ j, j < fs.length ∧ s.eventAt j ≠ .ok := by
      by_contra hcon
      exact hall fun j hj => Classical.byContradiction fun hne => hcon ⟨j, hj, hne⟩
    classical
    obtain ⟨hk, hne⟩ := Nat.find_spec hex
    have hmin : ∀ j < Nat.find hex, s.eventAt j = .ok := fun j hj =>
      Classical.byContradiction fun hn => Nat.find_min hex hj ⟨by omega, hn⟩
    generalize Nat.find hex = k at hk hne hmin
    have hlen : (fs.take k).length = k := by rw [List.length_take]; omega
    have hfs : fs = fs.take k ++ fs[k] :: fs.drop (k + 1) := by simp
    have hat := sendAll_at a (fs.take k) fs[k] (fs.drop (k + 1)) s (by rw [hlen]; exact hmin)
    rw [← hfs] at hat
    refine ⟨_, _, _, hfs, by rw [hlen]; exact hmin, ?_⟩
    rw [hlen] at hat ⊢
    cases he : s.eventAt k <;> rw [he] at hat hne
    · exact absurd rfl hne
    · exact .inl ⟨rfl, hat⟩
    · exact .inr (.inl ⟨rfl, hat⟩)
    · exact .inr (.inr (.inl ⟨rfl, hat⟩))
    · exact .inr (.inr (.inr ⟨rfl, hat⟩))

/-- One transaction is a sequence of one. -/
theorem busWrite_eq_sendAll (a : Byte) (f : BusFrame) (s : State) :
    busWrite a f s = sendAll a [f] s := by
  rw [sendAll]
  cases busWrite a f s <;> rfl

end Sys2Proof.Machine
end

