-- ==== Sys2Proof/Laws/Encoding.lean ====
section
/-! SUPPORT. The small laws of the packet fields (`spec/30_encoding.md` R82, R83): each field read back
from its bytes, and the opcode map. -/

namespace Sys2Proof

theorem i16OfBytes_lo_hi (x : Coord) : i16OfBytes (loByte x) (hiByte x) = x := by
  apply BitVec.eq_of_toNat_eq
  have := x.isLt
  simp only [i16OfBytes, loByte, hiByte, BitVec.toNat_ofNat]
  omega

theorem loByte_i16OfBytes (lo hi : Byte) : loByte (i16OfBytes lo hi) = lo := by
  apply BitVec.eq_of_toNat_eq
  have := lo.isLt
  have := hi.isLt
  simp only [i16OfBytes, loByte, BitVec.toNat_ofNat]
  omega

theorem hiByte_i16OfBytes (lo hi : Byte) : hiByte (i16OfBytes lo hi) = hi := by
  apply BitVec.eq_of_toNat_eq
  have := lo.isLt
  have := hi.isLt
  simp only [i16OfBytes, hiByte, BitVec.toNat_ofNat]
  omega

theorem flagOfByte_flagByte (f : Bool) : flagOfByte (flagByte f) = f := by cases f <;> decide

theorem opcodeOf_byte (op : Opcode) : opcodeOf op.byte = some op := by cases op <;> decide

theorem opcodeOf_eq_some {b : Byte} {op : Opcode} (h : opcodeOf b = some op) : b = op.byte := by
  unfold opcodeOf at h
  have := List.find?_some h
  simpa [eq_comm] using this

/-- What decoding a packet with a known opcode comes to. -/
theorem decode_byte (op : Opcode) (rest : List Byte) :
    decode (op.byte :: rest) = match decodeOperands op rest with
      | none => .error (.wrongLength op)
      | some i => .ok i := by
  cases hd : decodeOperands op rest <;> simp only [decode, opcodeOf_byte, hd]

/-- A packet decodes exactly when its opcode is known and its operands have the format's length. -/
theorem decode_eq_ok_iff (p : List Byte) (i : Instr) :
    decode p = .ok i ↔ ∃ op rest, p = Opcode.byte op :: rest ∧ decodeOperands op rest = some i := by
  constructor
  · intro h
    cases p with
    | nil => simp [decode] at h
    | cons b rest =>
      cases ho : opcodeOf b with
      | none => simp [decode, ho] at h
      | some op =>
        obtain rfl := opcodeOf_eq_some ho
        rw [decode_byte] at h
        cases hd : decodeOperands op rest with
        | none => simp [hd] at h
        | some j => exact ⟨op, rest, rfl, by simpa [hd] using h⟩
  · rintro ⟨op, rest, rfl, hd⟩
    rw [decode_byte, hd]

end Sys2Proof
end

