-- ==== Sys2Proof/Laws/Panel.lean ====
section
/-! SUPPORT. What the reference sink can do with a frame (`spec/60_exceptions.md` R219): which panel a
frame meets, what it forgets, and that its bytes stay listed in rising order. -/

namespace Sys2Proof.Machine

/-! ### Which panel -/

@[simp] theorem Panel.at_target (d : Panel) (a : Byte) : (d.at a).target = some a := by
  unfold Panel.at
  split_ifs with h
  · exact h
  · rfl

/-- The panel described is the one at the target: it is met as it is. -/
theorem Panel.at_same {d : Panel} {a : Byte} (h : d.target = some a) : d.at a = d := if_pos h

@[simp] theorem Panel.forget_target (d : Panel) (w : Option Window) :
    (d.forget w).target = d.target := by cases w <;> rfl

@[simp] theorem Panel.acceptData_target (d : Panel) (payload : List Byte) :
    (d.acceptData payload).target = d.target := by
  unfold Panel.acceptData
  split
  · split_ifs
    · rfl
    · rfl
    · exact d.forget_target _
  · exact d.forget_target _

@[simp] theorem Panel.accept_target (wire : Wire) (d : Panel) (f : BusFrame) :
    (d.accept wire f).target = d.target := by
  cases f with
  | command c => cases c <;> rfl
  | data payload => exact d.acceptData_target payload

/-! ### What is forgotten -/

/-- The bytes of the window are forgotten and no other. -/
theorem Panel.forget_devByte (d : Panel) (w : Window) (p x : Nat) :
    (d.forget (some w)).devByte p x
      = if w.covers (devKey p x) then none else d.devByte p x := by
  have h := Cells.get_filter d.dev (fun k => !w.covers k) (devKey p x)
  simp only [Bool.not_eq_true'] at h
  unfold Panel.devByte
  by_cases hc : w.covers (devKey p x) = true
  · simpa [Panel.forget, hc] using h
  · simpa [Panel.forget, hc] using h

@[simp] theorem Panel.forget_none_devByte (d : Panel) (p x : Nat) :
    (d.forget none).devByte p x = none := rfl

/-- Where a byte of the panel's memory is not known, no lit pixel of it is, while the panel is on. -/
theorem Panel.lit_of_unknown {d : Panel} (hp : d.power = some true) (x y : Nat)
    (h : d.devByte (y / pageRows) x = none) : d.lit x y = none := by
  unfold Panel.lit
  rw [hp, h]
  cases d.inverted <;> rfl

/-- After a failed frame of SHOW the bytes outside the window are known as before. -/
theorem Panel.keepOutside_devByte (d : Panel) (w : Window) (p x : Nat) :
    (d.keepOutside (some w)).devByte p x
      = if w.covers (devKey p x) then none else d.devByte p x := d.forget_devByte w p x

/-- A failed command frame that is no address frame leaves nothing known. -/
theorem Panel.lose_command (d : Panel) (c : PanelCmd)
    (h : ∀ c0 c1 p0 p1, c ≠ .address c0 c1 p0 p1) : d.lose (.command c) = Panel.unknown := by
  cases c <;> first | rfl | exact absurd rfl (h _ _ _ _)

/-- Each frame of INIT is such a frame. -/
theorem Panel.lose_initFrame {wire : Wire} {w h : Byte} {evcc : Bool} {f : BusFrame}
    (hf : f ∈ initFrames wire w h evcc) (d : Panel) : d.lose f = Panel.unknown := by
  obtain ⟨c, hc, rfl⟩ := List.mem_map.mp hf
  refine d.lose_command c ?_
  rintro c0 c1 p0 p1 rfl
  simp [initSteps] at hc

/-! ### The bytes stay listed in rising order -/

theorem Panel.sorted_at {d : Panel} (h : Cells.sorted d.dev) (a : Byte) :
    Cells.sorted (d.at a).dev := by
  unfold Panel.at
  split_ifs
  · exact h
  · exact List.Pairwise.nil

theorem Panel.sorted_forget {d : Panel} (h : Cells.sorted d.dev) (w : Option Window) :
    Cells.sorted (d.forget w).dev := by
  cases w with
  | none => exact List.Pairwise.nil
  | some w => exact Cells.sorted_filter _ h

theorem Panel.sorted_acceptData {d : Panel} (h : Cells.sorted d.dev) (payload : List Byte) :
    Cells.sorted (d.acceptData payload).dev := by
  unfold Panel.acceptData
  split
  · split_ifs
    · exact Cells.sorted_putAll _ _ h
    · exact Cells.sorted_putAll _ _ h
    · exact Panel.sorted_forget h _
  · exact Panel.sorted_forget h _

theorem Panel.sorted_accept {d : Panel} (h : Cells.sorted d.dev) (wire : Wire) (f : BusFrame) :
    Cells.sorted (d.accept wire f).dev := by
  cases f with
  | command c => cases c <;> exact h
  | data payload => exact Panel.sorted_acceptData h payload

theorem Panel.sorted_lose {d : Panel} (h : Cells.sorted d.dev) (f : BusFrame) :
    Cells.sorted (d.lose f).dev := by
  cases f with
  | command c => cases c <;> first | exact List.Pairwise.nil | exact Panel.sorted_forget h _
  | data _ => exact Panel.sorted_forget h _

end Sys2Proof.Machine
end

