-- ==== Sys2Proof/Laws/PerInstr.lean ====
section
/-! SUPPORT. One lemma per command: the opcode byte of its packet (`spec/30_encoding.md` R83) and the
packet's length (R84, R87). The family is listed in `LAWS.json`. -/

/-- The opcode column of R83, written out from the rule. -/
def Sys2Proof.Laws.EncodingShape.opcode : Sys2Proof.Instr → Sys2Proof.Byte
  | .setPixel _ _ _ => 0x01
  | .getPixel _ _ => 0x02
  | .clear => 0x03
  | .init _ _ _ _ => 0x10
  | .deinit => 0x11
  | .powerOn => 0x12
  | .powerOff => 0x13
  | .contrast _ => 0x14
  | .invert _ => 0x15
  | .showBuf => 0x20
  | .drawChar _ _ _ _ => 0x30
  | .drawString _ _ _ _ => 0x31
  | .setFont _ => 0x32

/-- The length column of R84, with R87's count for DRAW_STRING. -/
def Sys2Proof.Laws.EncodingShape.length : Sys2Proof.Instr → Nat
  | .setPixel _ _ _ => 6
  | .getPixel _ _ => 5
  | .clear => 1
  | .init _ _ _ _ => 5
  | .deinit => 1
  | .powerOn => 1
  | .powerOff => 1
  | .contrast _ => 2
  | .invert _ => 2
  | .showBuf => 1
  | .drawChar _ _ _ _ => 7
  | .drawString _ _ _ s => 7 + s.length
  | .setFont _ => 2

/-- The packet begins with the command's opcode and has its format's length, and a command that has
an encoding has one of at most 262 bytes. -/
def Sys2Proof.Laws.EncodingShape.Statement (i : Sys2Proof.Instr) : Prop :=
  (Sys2Proof.encode i).head? = some (Sys2Proof.Laws.EncodingShape.opcode i) ∧
  (Sys2Proof.encode i).length = Sys2Proof.Laws.EncodingShape.length i ∧
  (i.wf = true → Sys2Proof.Laws.EncodingShape.length i ≤ 262)

theorem Sys2Proof.Laws.EncodingShape.setPixel (x y : Sys2Proof.Coord) (on : Bool) :
    Sys2Proof.Laws.EncodingShape.Statement (.setPixel x y on) := ⟨rfl, rfl, fun _ => Nat.le_of_ble_eq_true rfl⟩
theorem Sys2Proof.Laws.EncodingShape.getPixel (x y : Sys2Proof.Coord) :
    Sys2Proof.Laws.EncodingShape.Statement (.getPixel x y) := ⟨rfl, rfl, fun _ => Nat.le_of_ble_eq_true rfl⟩
theorem Sys2Proof.Laws.EncodingShape.clear :
    Sys2Proof.Laws.EncodingShape.Statement .clear := ⟨rfl, rfl, fun _ => Nat.le_of_ble_eq_true rfl⟩
theorem Sys2Proof.Laws.EncodingShape.init (width height address : Sys2Proof.Byte)
    (externalVcc : Bool) :
    Sys2Proof.Laws.EncodingShape.Statement (.init width height address externalVcc) :=
  ⟨rfl, rfl, fun _ => Nat.le_of_ble_eq_true rfl⟩
theorem Sys2Proof.Laws.EncodingShape.deinit :
    Sys2Proof.Laws.EncodingShape.Statement .deinit := ⟨rfl, rfl, fun _ => Nat.le_of_ble_eq_true rfl⟩
theorem Sys2Proof.Laws.EncodingShape.powerOn :
    Sys2Proof.Laws.EncodingShape.Statement .powerOn := ⟨rfl, rfl, fun _ => Nat.le_of_ble_eq_true rfl⟩
theorem Sys2Proof.Laws.EncodingShape.powerOff :
    Sys2Proof.Laws.EncodingShape.Statement .powerOff := ⟨rfl, rfl, fun _ => Nat.le_of_ble_eq_true rfl⟩
theorem Sys2Proof.Laws.EncodingShape.contrast (val : Sys2Proof.Byte) :
    Sys2Proof.Laws.EncodingShape.Statement (.contrast val) := ⟨rfl, rfl, fun _ => Nat.le_of_ble_eq_true rfl⟩
theorem Sys2Proof.Laws.EncodingShape.invert (flag : Bool) :
    Sys2Proof.Laws.EncodingShape.Statement (.invert flag) := ⟨rfl, rfl, fun _ => Nat.le_of_ble_eq_true rfl⟩
theorem Sys2Proof.Laws.EncodingShape.showBuf :
    Sys2Proof.Laws.EncodingShape.Statement .showBuf := ⟨rfl, rfl, fun _ => Nat.le_of_ble_eq_true rfl⟩
theorem Sys2Proof.Laws.EncodingShape.drawChar (x y : Sys2Proof.Coord) (scale c : Sys2Proof.Byte) :
    Sys2Proof.Laws.EncodingShape.Statement (.drawChar x y scale c) :=
  ⟨rfl, rfl, fun _ => Nat.le_of_ble_eq_true rfl⟩
theorem Sys2Proof.Laws.EncodingShape.drawString (x y : Sys2Proof.Coord) (scale : Sys2Proof.Byte)
    (s : List Sys2Proof.Byte) :
    Sys2Proof.Laws.EncodingShape.Statement (.drawString x y scale s) := by
  refine ⟨rfl, ?_, fun h => ?_⟩
  · simp only [Sys2Proof.encode, Sys2Proof.Instr.operandBytes, Sys2Proof.Laws.EncodingShape.length,
      List.length_cons, List.length_append, List.length_nil]
    omega
  · have h : s.length ≤ 255 := of_decide_eq_true h
    show 7 + s.length ≤ 262
    omega
theorem Sys2Proof.Laws.EncodingShape.setFont (id : Sys2Proof.Byte) :
    Sys2Proof.Laws.EncodingShape.Statement (.setFont id) := ⟨rfl, rfl, fun _ => Nat.le_of_ble_eq_true rfl⟩
end

