-- ==== Sys2Proof/Laws/Pixels.lean ====
section
/-! SUPPORT. What `Handle.setPixel` can do, bit by bit, and what it leaves alone (`spec/20_memory.md` R52,
R54, R55; `spec/40_buffer_model.md` R121). -/

namespace Sys2Proof.Machine

/-- The bits of a byte with one bit set or cleared. -/
theorem withBit_getLsbD (old : Byte) (bit : Nat) (on : Bool) (b : Nat) (hb : bit < 8) :
    (withBit old bit on).getLsbD b = if b = bit then on else old.getLsbD b := by
  by_cases hb8 : b < 8
  · have hone : (1#8 <<< bit).getLsbD b = decide (b = bit) := by
      rw [BitVec.getLsbD_shiftLeft, BitVec.getLsbD_one]
      by_cases h : b = bit
      · simp [h, hb]
      · by_cases hlt : b < bit
        · simp [h, hlt]
        · have : b - bit ≠ 0 := by omega
          simp [h, this]
    cases on
    · simp only [withBit, Bool.false_eq_true, if_false, BitVec.getLsbD_and, BitVec.getLsbD_not,
        hone, hb8]
      by_cases h : b = bit <;> simp [h]
    · simp only [withBit, if_true, BitVec.getLsbD_or, hone]
      by_cases h : b = bit <;> simp [h]
  · have hne : b ≠ bit := by omega
    rw [if_neg hne, BitVec.getLsbD_of_ge _ b (by omega), BitVec.getLsbD_of_ge _ b (by omega)]

theorem bitOf_lt (y : Int) : bitOf y < 8 := Nat.mod_lt _ (by decide)

/-! ### What stays -/

theorem Handle.setPixel_keeps (h : Handle) (x y : Int) (on : Bool) :
    h.setPixel x y on = { h with buf := (h.setPixel x y on).buf } := by
  unfold Handle.setPixel; split_ifs <;> rfl

@[simp] theorem Handle.setPixel_width (h : Handle) (x y : Int) (on : Bool) :
    (h.setPixel x y on).width = h.width := by unfold Handle.setPixel; split_ifs <;> rfl
@[simp] theorem Handle.setPixel_height (h : Handle) (x y : Int) (on : Bool) :
    (h.setPixel x y on).height = h.height := by unfold Handle.setPixel; split_ifs <;> rfl
@[simp] theorem Handle.setPixel_pages (h : Handle) (x y : Int) (on : Bool) :
    (h.setPixel x y on).pages = h.pages := by unfold Handle.setPixel; split_ifs <;> rfl
@[simp] theorem Handle.setPixel_address (h : Handle) (x y : Int) (on : Bool) :
    (h.setPixel x y on).address = h.address := by unfold Handle.setPixel; split_ifs <;> rfl
@[simp] theorem Handle.setPixel_externalVcc (h : Handle) (x y : Int) (on : Bool) :
    (h.setPixel x y on).externalVcc = h.externalVcc := by unfold Handle.setPixel; split_ifs <;> rfl
@[simp] theorem Handle.setPixel_fontSel (h : Handle) (x y : Int) (on : Bool) :
    (h.setPixel x y on).fontSel = h.fontSel := by unfold Handle.setPixel; split_ifs <;> rfl

/-! ### What changes -/

/-- Everything `setPixel` does to the buffer, byte by byte. -/
theorem Handle.setPixel_read (h : Handle) (x y : Int) (on : Bool) (a : Nat) :
    (h.setPixel x y on).buf.read a =
      if h.onScreen x y ∧ h.idx x y = a then withBit (h.buf.read a) (bitOf y) on
      else h.buf.read a := by
  by_cases hs : h.onScreen x y
  · by_cases ha : h.idx x y = a
    · rw [Handle.setPixel, if_pos hs, if_pos ⟨hs, ha⟩, Memory.read_write, if_pos ha, ha]
    · rw [Handle.setPixel, if_pos hs, if_neg (fun h => ha h.2), Memory.read_write, if_neg ha]
  · rw [Handle.setPixel, if_neg hs, if_neg (fun h => hs h.1)]

/-- Everything `setPixel` does to the buffer, bit by bit. -/
theorem Handle.setPixel_bit (h : Handle) (x y : Int) (on : Bool) (a b : Nat) :
    ((h.setPixel x y on).buf.read a).getLsbD b =
      if h.onScreen x y ∧ h.idx x y = a ∧ b = bitOf y then on
      else (h.buf.read a).getLsbD b := by
  rw [Handle.setPixel_read]
  by_cases hs : h.onScreen x y ∧ h.idx x y = a
  · rw [if_pos hs, withBit_getLsbD _ _ _ _ (bitOf_lt y)]
    by_cases hb : b = bitOf y <;> simp [hs, hb]
  · rw [if_neg hs, if_neg (fun h => hs ⟨h.1, h.2.1⟩)]

/-! ### The pixel mapping -/

/-- Two pixels of the screen with the same byte and bit are the same pixel (R52, "a bijection"). -/
theorem Handle.idx_injective (h : Handle) {x y X Y : Int} (hs : h.onScreen x y)
    (hS : h.onScreen X Y) (hi : h.idx x y = h.idx X Y) (hb : bitOf y = bitOf Y) :
    x = X ∧ y = Y := by
  obtain ⟨hx0, hx1, hy0, hy1⟩ := hs
  obtain ⟨hX0, hX1, hY0, hY1⟩ := hS
  have key : ∀ (p x P X W : Nat), x < W → X < W → p * W + x = P * W + X → p = P ∧ x = X := by
    intro p x P X W h1 h2 h
    have hp : (p * W + x) / W = p := by
      rw [Nat.mul_comm, Nat.mul_add_div (by omega), Nat.div_eq_of_lt h1]; omega
    have hP : (P * W + X) / W = P := by
      rw [Nat.mul_comm, Nat.mul_add_div (by omega), Nat.div_eq_of_lt h2]; omega
    have : p = P := by rw [← hp, ← hP, h]
    subst this
    exact ⟨rfl, by omega⟩
  obtain ⟨hp, hx⟩ := key _ _ _ _ _ (by omega) (by omega) hi
  have hb' : y.toNat % 8 = Y.toNat % 8 := hb
  have hp' : y.toNat / 8 = Y.toNat / 8 := hp
  exact ⟨by omega, by omega⟩

/-- A pixel of the screen lies in the buffer (R54), and the mapping's inverse is R52's. -/
theorem Handle.idx_inverse (h : Handle) {x y : Int} (hs : h.onScreen x y)
    (hp : h.pages.toNat = (byteVal h.height + 7) / 8) :
    h.idx x y < h.size ∧ h.idx x y % byteVal h.width = x.toNat ∧
      h.idx x y / byteVal h.width = y.toNat / 8 := by
  obtain ⟨hx0, hx1, hy0, hy1⟩ := hs
  have hx : x.toNat < byteVal h.width := by omega
  have hy : y.toNat / 8 < h.pages.toNat := by omega
  have e : h.idx x y = byteVal h.width * (y.toNat / 8) + x.toNat := by
    unfold Handle.idx pageRows; rw [Nat.mul_comm]
  refine ⟨?_, ?_, ?_⟩
  · unfold Handle.size
    rw [e]
    calc byteVal h.width * (y.toNat / 8) + x.toNat
        < byteVal h.width * (y.toNat / 8) + byteVal h.width := by omega
      _ = byteVal h.width * (y.toNat / 8 + 1) := by ring
      _ ≤ byteVal h.width * h.pages.toNat := Nat.mul_le_mul_left _ hy
  · rw [e, Nat.mul_add_mod, Nat.mod_eq_of_lt hx]
  · rw [e, Nat.mul_add_div (by omega), Nat.div_eq_of_lt hx]; omega

/-- A pixel write keeps everything the invariant says of a handle. -/
theorem Handle.inv_setPixel {cfg : Config} {h : Handle} (x y : Int) (on : Bool) (hi : h.Inv cfg) :
    (h.setPixel x y on).Inv cfg := by
  obtain ⟨hw, hh, hp, hf, hc, hm, hb, hpad⟩ := hi
  have hsize : (h.setPixel x y on).size = h.size := by unfold Handle.size; simp
  refine ⟨by simpa using hw, by simpa using hh, by simpa using hp, by simpa using hf,
    by rw [hsize]; exact hc, ?_, ?_, ?_⟩
  · unfold Handle.setPixel
    split_ifs
    · exact Memory.wf_write _ _ hm
    · exact hm
  · rw [hsize]
    unfold Handle.setPixel
    split_ifs with hs
    · exact Memory.write_below _ (Handle.idx_inverse h hs hp).1 hb
    · exact hb
  · intro i hi b hb8 hrow
    rw [hsize] at hi
    simp only [Handle.setPixel_height, Handle.setPixel_width] at hrow
    rw [Handle.setPixel_bit, if_neg, hpad i hi b hb8 hrow]
    rintro ⟨hs, rfl, rfl⟩
    rw [(Handle.idx_inverse h hs hp).2.2] at hrow
    obtain ⟨-, -, hy0, hy1⟩ := hs
    unfold bitOf pageRows at hrow
    omega

end Sys2Proof.Machine
end

