-- ==== Sys2Proof/Laws/Raster.lean ====
section
/-! SUPPORT. What the painting operations can do (`spec/43_glyph_rasterizer.md` R181, R184, R187): they turn
on the pixels of the screen that lie in the set painted, and nothing else. The sets are those of the
loops; the closed form of R182 is a claim about them. -/

namespace Sys2Proof.Machine

/-- From `h` to `h'`: the screen's pixels in `P` are turned on, every other bit of the buffer and every
other field stays, and the invariant is kept. -/
structure Paints (h h' : Handle) (P : Int → Int → Prop) : Prop where
  keeps : h' = { h with buf := h'.buf }
  bits : ∀ a b, (h'.buf.read a).getLsbD b = true ↔ (h.buf.read a).getLsbD b = true ∨
    ∃ X Y, h.onScreen X Y ∧ h.idx X Y = a ∧ bitOf Y = b ∧ P X Y
  inv : ∀ cfg : Config, h.Inv cfg → h'.Inv cfg

theorem Paints.width {h h' : Handle} {P} (p : Paints h h' P) : h'.width = h.width := by
  rw [p.keeps]
theorem Paints.height {h h' : Handle} {P} (p : Paints h h' P) : h'.height = h.height := by
  rw [p.keeps]
theorem Paints.pages {h h' : Handle} {P} (p : Paints h h' P) : h'.pages = h.pages := by
  rw [p.keeps]
theorem Paints.fontSel {h h' : Handle} {P} (p : Paints h h' P) : h'.fontSel = h.fontSel := by
  rw [p.keeps]
theorem Paints.onScreen {h h' : Handle} {P} (p : Paints h h' P) (X Y : Int) :
    h'.onScreen X Y ↔ h.onScreen X Y := by
  unfold Handle.onScreen; rw [p.width, p.height]
theorem Paints.idx {h h' : Handle} {P} (p : Paints h h' P) (X Y : Int) :
    h'.idx X Y = h.idx X Y := by
  unfold Handle.idx; rw [p.width]

theorem Paints.congr {h h' : Handle} {P Q : Int → Int → Prop} (p : Paints h h' P)
    (hPQ : ∀ X Y, P X Y ↔ Q X Y) : Paints h h' Q :=
  ⟨p.keeps, fun a b => by rw [p.bits a b]; simp only [hPQ], p.inv⟩

theorem Paints.refl (h : Handle) : Paints h h fun _ _ => False :=
  ⟨rfl, fun a b => by simp, fun _ hi => hi⟩

theorem Paints.trans {h h1 h2 : Handle} {P Q : Int → Int → Prop} (p : Paints h h1 P)
    (q : Paints h1 h2 Q) : Paints h h2 fun X Y => P X Y ∨ Q X Y := by
  refine ⟨?_, fun a b => ?_, fun cfg hi => q.inv cfg (p.inv cfg hi)⟩
  · rw [q.keeps, p.keeps]
  · rw [q.bits, p.bits]
    simp only [p.onScreen, p.idx]
    constructor
    · rintro ((h | ⟨X, Y, h1, h2, h3, h4⟩) | ⟨X, Y, h1, h2, h3, h4⟩)
      · exact .inl h
      · exact .inr ⟨X, Y, h1, h2, h3, .inl h4⟩
      · exact .inr ⟨X, Y, h1, h2, h3, .inr h4⟩
    · rintro (h | ⟨X, Y, h1, h2, h3, h4 | h4⟩)
      · exact .inl (.inl h)
      · exact .inl (.inr ⟨X, Y, h1, h2, h3, h4⟩)
      · exact .inr ⟨X, Y, h1, h2, h3, h4⟩

theorem Paints.setPixel (h : Handle) (x y : Int) :
    Paints h (h.setPixel x y true) fun X Y => X = x ∧ Y = y := by
  refine ⟨h.setPixel_keeps x y true, fun a b => ?_, fun _ hi => Handle.inv_setPixel x y true hi⟩
  rw [Handle.setPixel_bit]
  by_cases hc : h.onScreen x y ∧ h.idx x y = a ∧ b = bitOf y
  · rw [if_pos hc]
    exact ⟨fun _ => .inr ⟨x, y, hc.1, hc.2.1, hc.2.2.symm, rfl, rfl⟩, fun _ => rfl⟩
  · rw [if_neg hc]
    constructor
    · exact .inl
    · rintro (h | ⟨X, Y, h1, h2, h3, rfl, rfl⟩)
      · exact h
      · exact absurd ⟨h1, h2, h3.symm⟩ hc

/-- A loop of paintings paints the union. -/
theorem Paints.foldl {α : Type} (f : Handle → α → Handle) (P : α → Int → Int → Prop)
    (hf : ∀ h i, Paints h (f h i) (P i)) (l : List α) (h : Handle) :
    Paints h (l.foldl f h) fun X Y => ∃ i ∈ l, P i X Y := by
  induction l generalizing h with
  | nil => exact (Paints.refl h).congr (by simp)
  | cons i l ih => exact ((hf h i).trans (ih (f h i))).congr (by simp)

/-- The block of R181 covers `[x, x + scale)` by `[y, y + scale)`. -/
theorem Paints.block (scale : Nat) (x y : Int) (h : Handle) :
    Paints h (paintBlock scale x y h) fun X Y =>
      x ≤ X ∧ X < x + scale ∧ y ≤ Y ∧ Y < y + scale := by
  unfold paintBlock
  refine (Paints.foldl _ (fun (dy : Nat) X Y => x ≤ X ∧ X < x + scale ∧ Y = y + dy) ?_ _ h).congr ?_
  · intro h dy
    refine (Paints.foldl _ (fun (dx : Nat) X Y => X = x + dx ∧ Y = y + dy)
      (fun h dx => Paints.setPixel h _ _) _ h).congr fun X Y => ?_
    constructor
    · rintro ⟨dx, hdx, rfl, rfl⟩
      have := List.mem_range.mp hdx
      omega
    · rintro ⟨h1, h2, rfl⟩
      exact ⟨(X - x).toNat, List.mem_range.mpr (by omega), by omega, rfl⟩
  · intro X Y
    constructor
    · rintro ⟨dy, hdy, h1, h2, rfl⟩
      have := List.mem_range.mp hdy
      omega
    · rintro ⟨h1, h2, h3, h4⟩
      exact ⟨(Y - y).toNat, List.mem_range.mpr (by omega), h1, h2, by omega⟩

/-- The set the loops of R181 paint for a glyph. -/
def glyphSet (col : List Byte) (scale : Nat) (x y X Y : Int) : Prop :=
  ∃ gc gr : Nat, gc < glyphW ∧ gr < glyphH ∧ glyphBit col gc gr = true ∧
    x + gc * scale ≤ X ∧ X < x + gc * scale + scale ∧
    y + gr * scale ≤ Y ∧ Y < y + gr * scale + scale

theorem Paints.glyph (col : List Byte) (scale : Nat) (x y : Int) (h : Handle) :
    Paints h (paintGlyph col scale x y h) (glyphSet col scale x y) := by
  unfold paintGlyph
  refine (Paints.foldl _ (fun (gc : Nat) X Y => ∃ gr ∈ List.range glyphH,
    glyphBit col gc gr = true ∧ x + gc * scale ≤ X ∧ X < x + gc * scale + scale ∧
      y + gr * scale ≤ Y ∧ Y < y + gr * scale + scale) (fun h gc => ?_) _ h).congr fun X Y => ?_
  · refine Paints.foldl _ (fun (gr : Nat) X Y => glyphBit col gc gr = true ∧
      x + gc * scale ≤ X ∧ X < x + gc * scale + scale ∧
      y + gr * scale ≤ Y ∧ Y < y + gr * scale + scale) (fun h gr => ?_) _ h
    by_cases hb : glyphBit col gc gr = true
    · simp only [hb, if_true, true_and]
      exact Paints.block _ _ _ h
    · simp only [hb, if_false, false_and, Bool.false_eq_true]
      exact Paints.refl h
  · simp only [glyphSet, List.mem_range]
    exact ⟨fun ⟨gc, h1, gr, h2, h3⟩ => ⟨gc, gr, h1, h2, h3⟩,
      fun ⟨gc, gr, h1, h2, h3⟩ => ⟨gc, h1, gr, h2, h3⟩⟩

/-- The set painted for a character: its glyph's, or nothing (R185 a). -/
def charSet (cfg : Config) (fontSel : Byte) (scale : Nat) (c : Byte) (x y X Y : Int) : Prop :=
  ∃ col, activeGlyph cfg fontSel c = some col ∧ glyphSet col scale x y X Y

theorem Paints.char (cfg : Config) (x y : Int) (scale : Nat) (c : Byte) (h : Handle) :
    Paints h (paintChar cfg x y scale c h) (charSet cfg h.fontSel scale c x y) := by
  unfold paintChar
  cases hg : activeGlyph cfg h.fontSel c with
  | none => exact (Paints.refl h).congr (by simp [charSet, hg])
  | some col => exact (Paints.glyph col scale x y h).congr (by simp [charSet, hg])

/-- Characters `i`, `i + 1`, ... of a string, each at its cursor (R188). -/
theorem Paints.string (cfg : Config) (x y : Int) (scale i : Nat) (str : List Byte) (h : Handle) :
    Paints h (paintString cfg x y scale i str h) fun X Y =>
      ∃ (k : Nat) (c : Byte), str[k]? = some c ∧
        charSet cfg h.fontSel scale c (x + (i + k : Nat) * advance * scale) y X Y := by
  induction str generalizing i h with
  | nil => exact (Paints.refl h).congr (by simp)
  | cons c str ih =>
    have p := Paints.char cfg (x + i * advance * scale) y scale c h
    refine (p.trans (ih (i + 1) _)).congr fun X Y => ?_
    rw [p.fontSel]
    constructor
    · rintro (h | ⟨k, d, h1, h2⟩)
      · exact ⟨0, c, rfl, h⟩
      · refine ⟨k + 1, d, by simpa using h1, ?_⟩
        rwa [show i + (k + 1) = i + 1 + k by omega]
    · rintro ⟨k, d, h1, h2⟩
      cases k with
      | zero =>
        obtain rfl : c = d := by simpa using h1
        exact .inl h2
      | succ k =>
        refine .inr ⟨k, d, by simpa using h1, ?_⟩
        rwa [show i + 1 + k = i + (k + 1) by omega]

end Sys2Proof.Machine
end

