-- ==== Sys2Proof/Tests/Slice0.lean ====
section
/-! SUPPORT. The model's own tests. Expected values are the vectors of `spec/95_test_vectors.md` (named
in each comment) or the rule cited; the machines are the vectors' own: fonts `TF` and `TF2`, the
default `WIRE` of R96. Then, for every statement with hypotheses, a witness that meets them. -/

namespace Sys2Proof.Tests

open Sys2Proof.Machine

/-! ### The vectors' machine -/

/-- Font `TF` of the vectors. -/
def fontTF : FontTable :=
  { first := 0x41, last := 0x45
    data := [0x01, 0x00, 0x00, 0x00, 0x00, 0x7F, 0x00, 0x00, 0x00, 0x00, 0x7F, 0x41, 0x41, 0x41, 0x7F,
      0x40, 0x00, 0x00, 0x00, 0x40, 0x80, 0x80, 0x80, 0x80, 0xFF] }

/-- Font `TF2` of the vectors. -/
def fontTF2 : FontTable := { first := 0x41, last := 0x41, data := [0x7F, 0x00, 0x00, 0x00, 0x00] }

def cfgV : Config :=
  { bufCap := 8160, surfaceCosmeticErrors := false, wire := Wire.ssd1306, font0 := fontTF
    moreFonts := [fontTF2] }

/-- The vectors' machine with `life` and the transport's answers given. -/
def machine (life : Lifecycle) (events : List BusEvent) : State :=
  { cfg := cfgV, life := life, trace := [], responses := [], inputs := [], events := events
    busIndex := 0, panel := Panel.unknown }

/-- A handle with font 0 and the buffer given. -/
def handle (w h a : Byte) (buf : Memory) : Handle :=
  { width := w, height := h, pages := pagesOf h, address := a, externalVcc := false, fontSel := 0
    buf := buf }

def ready (w h a : Byte) (buf : Memory) : Lifecycle := .ready (handle w h a buf)

def offering (i : Input) (s : State) : State := { s with inputs := [i] }

def surfacing (s : State) : State := { s with cfg := { s.cfg with surfaceCosmeticErrors := true } }

/-- The next state, where there is one. -/
def nextOf (o : Outcome) : Option State :=
  match o with
  | .next t => some t
  | .fault _ => none
  | .refused _ => none

/-- The response bytes and the buffer after. -/
def bufAfter (i : Instr) (s : State) : Option (List (List Byte) × Memory) :=
  (nextOf (exec i s)).bind fun t =>
    match t.life with
    | .uninit => none
    | .ready h => some (t.responses.map Response.bytes, h.buf)

/-- The response bytes, the frames sent and whether the block is `READY` after. -/
def busAfter (i : Instr) (s : State) : Option (List (List Byte) × List (List Byte) × Bool) :=
  (nextOf (exec i s)).map fun t =>
    (t.responses.map Response.bytes, t.trace.map Transaction.bytes, decide (t.life ≠ .uninit))

/-! ### Well-formedness: an ill-formed term for each check -/

/-- R87: 255 characters are the most a packet holds. -/
theorem test_wf_refuses_256_characters :
    (Instr.drawString 0 0 1 (List.replicate 256 0x42)).wf = false ∧
    (Instr.drawString 0 0 1 (List.replicate 255 0x42)).wf = true := by decide +kernel

/-- R86 (d): the font must be wired. -/
theorem test_legal_refuses_unwired_font :
    (Instr.setFont 2).legal 2 = false ∧ (Instr.setFont 1).legal 2 = true ∧
    (Instr.drawString 0 0 1 (List.replicate 256 0x42)).legal 2 = false := by decide +kernel

/-! ### Decoding: packets from R84 and the vectors -/

theorem test_decode_setPixel : decode [0x01, 0x2C, 0x01, 0x00, 0x80, 0x01]
    = .ok (.setPixel 300 (-32768) true) := by rfl
theorem test_decode_getPixel : decode [0x02, 0x05, 0x00, 0x09, 0x00] = .ok (.getPixel 5 9) := by rfl
theorem test_decode_clear : decode [0x03] = .ok .clear := by rfl
theorem test_decode_init : decode [0x10, 0x80, 0x20, 0x3C, 0x01] = .ok (.init 128 32 0x3C true) := by
  rfl
theorem test_decode_deinit : decode [0x11] = .ok .deinit := by rfl
theorem test_decode_powerOn : decode [0x12] = .ok .powerOn := by rfl
theorem test_decode_powerOff : decode [0x13] = .ok .powerOff := by rfl
theorem test_decode_contrast : decode [0x14, 0xFF] = .ok (.contrast 255) := by rfl
theorem test_decode_invert : decode [0x15, 0x01] = .ok (.invert true) := by rfl
theorem test_decode_showBuf : decode [0x20] = .ok .showBuf := by rfl
theorem test_decode_drawChar : decode [0x30, 0xFC, 0xFF, 0x0A, 0x00, 0x03, 0x43]
    = .ok (.drawChar (-4) 10 3 0x43) := by rfl
/-- VDS7. -/
theorem test_decode_drawString : decode [0x31, 0xF9, 0xFF, 0x00, 0x00, 0x01, 0x03, 0x42, 0x42, 0x43]
    = .ok (.drawString (-7) 0 1 [0x42, 0x42, 0x43]) := by rfl
theorem test_decode_setFont : decode [0x32, 0x02] = .ok (.setFont 2) := by rfl

/-- VE5 to VE7: no opcode, and codes that no row has. -/
theorem test_decode_refuses_opcodes :
    decode [] = .error .emptyPacket ∧ decode [0x00] = .error (.unknownOpcode 0x00) ∧
    decode [0x04] = .error (.unknownOpcode 0x04) ∧ decode [0x16] = .error (.unknownOpcode 0x16) ∧
    decode [0x21] = .error (.unknownOpcode 0x21) ∧ decode [0x33] = .error (.unknownOpcode 0x33) ∧
    decode [0xFF] = .error (.unknownOpcode 0xFF) := ⟨rfl, rfl, rfl, rfl, rfl, rfl, rfl⟩

/-- VE8 to VE12: wrong lengths. -/
theorem test_decode_refuses_lengths :
    decode [0x03, 0x00] = .error (.wrongLength .clear) ∧
    decode [0x01, 0x05, 0x00, 0x09, 0x00] = .error (.wrongLength .setPixel) ∧
    decode [0x31, 0, 0, 0, 0, 1, 2, 0x41] = .error (.wrongLength .drawString) ∧
    decode [0x31, 0, 0, 0, 0, 1, 1, 0x41, 0x42] = .error (.wrongLength .drawString) ∧
    decode [0x31, 0, 0, 0, 0, 1] = .error (.wrongLength .drawString) := ⟨rfl, rfl, rfl, rfl, rfl⟩

/-- VC10: the reserved flag bits are ignored, and a careful host does not set them. -/
theorem test_reserved_flag_bits :
    decode [0x10, 0x80, 0x40, 0x3C, 0xFE] = .ok (.init 128 64 0x3C false) ∧
    decode [0x10, 0x80, 0x40, 0x3C, 0x03] = .ok (.init 128 64 0x3C true) ∧
    reservedFlagBits [0x10, 0x80, 0x40, 0x3C, 0xFE] = true ∧
    reservedFlagBits [0x10, 0x80, 0x40, 0x3C, 0x01] = false := ⟨rfl, rfl, rfl, rfl⟩

/-- Words of the opcode table: the first byte is the low one, and missing operand bytes are zero. -/
theorem test_table_words :
    decodeTableWord 48 0x010009000501 = some (.setPixel 5 9 true) ∧
    decodeTableWord 8 0x31 = some (.drawString 0 0 0 []) ∧
    decodeTableWord 8 0x32 = some (.setFont 0) ∧ decodeTableWord 8 0x00 = none := by decide

/-- The packet placed runs as the first command after reset (VE14, VE16, VF8). -/
theorem test_first_command_after_reset :
    ((nextOf (step (State.reset.withFetchWord 8 0x20))).map State.responses
      = some [⟨.illegalState, none⟩]) ∧
    ((nextOf (step (State.reset.withFetchWord 40 0x10))).map State.responses
      = some [⟨.invalidGeometry, none⟩]) ∧
    ((nextOf (step (State.reset.withFetchWord 16 0x32))).map State.responses
      = some [⟨.illegalState, none⟩]) := by decide

/-! ### Buffer commands -/

/-- VB3, on 128 by 64. -/
theorem test_setPixel_place : bufAfter (.setPixel 5 9 true) (machine (ready 128 64 0x3C []) [])
    = some ([[0x00]], [(133, 0x02)]) := by decide
/-- VB15: a padding row is clipped although its byte exists. -/
theorem test_setPixel_padding :
    bufAfter (.setPixel 3 12 true) (machine (ready 10 12 0x3C [(13, 0x08)]) [])
    = some ([[0x00]], [(13, 0x08)]) := by decide
/-- VB11. -/
theorem test_getPixel_on : bufAfter (.getPixel 5 9) (machine (ready 128 64 0x3C [(133, 0x02)]) [])
    = some ([[0x00, 0x01]], [(133, 0x02)]) := by decide
/-- VB13. -/
theorem test_getPixel_off_screen :
    bufAfter (.getPixel (-1) 0) (machine (ready 128 64 0x3C [(0, 0xFF)]) [])
    = some ([[0x00, 0x00]], [(0, 0xFF)]) := by decide
/-- VB10, on 10 by 12. -/
theorem test_clear : bufAfter .clear (machine (ready 10 12 0x3C [(0, 0x01), (19, 0x0F)]) [])
    = some ([[0x00]], []) := by decide

/-! ### Device control -/

/-- VC2: the frames, the response, the state. -/
theorem test_init_frames :
    busAfter (.init 128 32 0x3C true) (machine .uninit (List.replicate 15 .ok))
    = some ([[0x00]],
        [[0x00, 0xAE], [0x00, 0xD5, 0x80], [0x00, 0xA8, 0x1F], [0x00, 0xD3, 0x00], [0x00, 0x40],
         [0x00, 0x8D, 0x10], [0x00, 0xA1], [0x00, 0xC8], [0x00, 0xDA, 0x02], [0x00, 0x81, 0xFF],
         [0x00, 0xDB, 0x30], [0x00, 0xA4], [0x00, 0xA6], [0x00, 0x20, 0x00], [0x00, 0xAF]],
        true) := by decide +kernel
/-- VC8: `ok, ok, fail`. -/
theorem test_init_stops : busAfter (.init 128 64 0x3C false) (machine .uninit [.ok, .ok, .fail])
    = some ([[0x01]], [[0x00, 0xAE], [0x00, 0xD5, 0x80], [0x00, 0xA8, 0x3F]], false) := by
  decide +kernel
/-- VC20. -/
theorem test_deinit_ok : busAfter .deinit (machine (ready 16 16 0x3C [(0, 0x01)]) [.ok])
    = some ([[0x00]], [[0x00, 0xAE]], false) := by decide
/-- VC22. -/
theorem test_deinit_surfaced :
    busAfter .deinit (surfacing (machine (ready 16 16 0x3C []) [.fail]))
    = some ([[0x01]], [[0x00, 0xAE]], false) := by decide
/-- VC12. -/
theorem test_powerOn : busAfter .powerOn (machine (ready 16 16 0x3C []) [.ok])
    = some ([[0x00]], [[0x00, 0xAF]], true) := by decide
/-- R230: a reset before the response leaves `UNINIT` and no response, and the panel on. -/
theorem test_powerOn_then_reset :
    (nextOf (step (offering (.packetThenReset [0x12]) (machine (ready 16 16 0x3C []) [.ok])))).map
        (fun t => (t.responses, decide (t.life = .uninit), t.panel.power))
      = some ([], true, some true) := by decide
/-- VC11. -/
theorem test_powerOff : busAfter .powerOff (machine (ready 16 16 0x3C []) [.ok])
    = some ([[0x00]], [[0x00, 0xAE]], true) := by decide
/-- R36 and R62: after the failed frame nothing is known of a panel whose power and memory were. -/
theorem test_powerOff_fail_loses_panel :
    (nextOf (exec .powerOff { machine (ready 8 16 0x3D []) [.fail] with
      panel := { Panel.unknown with target := some 0x3D, power := some true, dev := [(0, 0x01)] } })).map
        State.panel = some Panel.unknown := by decide
/-- VC18. -/
theorem test_contrast_fail : busAfter (.contrast 0x10) (machine (ready 16 16 0x3C []) [.fail])
    = some ([[0x00]], [[0x00, 0x81, 0x10]], true) := by decide
/-- VC19. -/
theorem test_contrast_surfaced :
    busAfter (.contrast 0x10) (surfacing (machine (ready 16 16 0x3C []) [.fail]))
    = some ([[0x01]], [[0x00, 0x81, 0x10]], true) := by decide
/-- VC16 and VC17. -/
theorem test_invert :
    busAfter (.invert true) (machine (ready 16 16 0x3C []) [.ok])
      = some ([[0x00]], [[0x00, 0xA7]], true) ∧
    busAfter (.invert false) (machine (ready 16 16 0x3C []) [.ok])
      = some ([[0x00]], [[0x00, 0xA6]], true) := by decide

/-! ### SHOW -/

/-- VF1. -/
theorem test_show_frames :
    busAfter .showBuf (machine (ready 10 12 0x3C [(13, 0x08)]) (List.replicate 4 .ok))
    = some ([[0x00]],
        [[0x00, 0x21, 0x00, 0x09, 0x22, 0x00, 0x00], [0x40, 0, 0, 0, 0, 0, 0, 0, 0, 0, 0],
         [0x00, 0x21, 0x00, 0x09, 0x22, 0x01, 0x01], [0x40, 0, 0, 0, 0x08, 0, 0, 0, 0, 0, 0]],
        true) := by decide +kernel
/-- VF5: a failed address frame. -/
theorem test_show_stops :
    busAfter .showBuf
      (machine (ready 8 16 0x3D [(0, 0x01), (11, 0x01), (15, 0x80)]) [.ok, .ok, .fail])
    = some ([[0x01]],
        [[0x00, 0x21, 0x00, 0x07, 0x22, 0x00, 0x00], [0x40, 0x01, 0, 0, 0, 0, 0, 0, 0],
         [0x00, 0x21, 0x00, 0x07, 0x22, 0x01, 0x01]],
        true) := by decide +kernel

/-! ### Rasterizer -/

/-- VDC5: a glyph across two pages. -/
theorem test_drawChar_straddles :
    bufAfter (.drawChar 10 5 1 0x42) (machine (ready 128 64 0x3C []) [])
    = some ([[0x00]], [(10, 0xE0), (138, 0x0F)]) := by decide +kernel
/-- VDC13: scaled and clipped on two sides. -/
theorem test_drawChar_clipped :
    bufAfter (.drawChar (-4) 10 3 0x43) (machine (ready 16 16 0x3C []) [])
    = some ([[0x00]],
        [(16, 0x1C), (17, 0x1C), (18, 0x1C), (19, 0x1C), (20, 0x1C), (21, 0x1C), (22, 0x1C),
         (23, 0x1C), (24, 0xFC), (25, 0xFC), (26, 0xFC)]) := by decide +kernel
/-- VDS2. -/
theorem test_drawString_scaled :
    bufAfter (.drawString 0 0 2 [0x41, 0x42]) (machine (ready 128 64 0x3C []) [])
    = some ([[0x00]], [(0, 0x03), (1, 0x03), (12, 0xFF), (13, 0xFF), (140, 0x3F), (141, 0x3F)]) := by
  decide +kernel
/-- VDS7: a negative start, and characters clipped on the left. -/
theorem test_drawString_negative :
    bufAfter (.drawString (-7) 0 1 [0x42, 0x42, 0x43]) (machine (ready 128 64 0x3C []) [])
    = some ([[0x00]], [(5, 0x7F), (6, 0x41), (7, 0x41), (8, 0x41), (9, 0x7F)]) := by
  decide +kernel
/-- VSF1: the glyph drawn with font 0 stays. -/
theorem test_setFont_keeps_pixels :
    ((nextOf (exec (.setFont 1) (machine (ready 128 64 0x3C [(0, 0x01)]) []))).bind fun t =>
      bufAfter (.drawChar 20 0 1 0x41) t)
    = some ([[0x00], [0x00]], [(0, 0x01), (20, 0x7F)]) := by decide +kernel
/-- VSF6 and VE14: a font that is not wired. -/
theorem test_setFont_unwired :
    bufAfter (.setFont 2) (machine (ready 16 16 0x3C []) []) = some ([[0x04]], []) ∧
    (nextOf (exec (.setFont 2) (machine .uninit []))).map (fun t => t.responses.map Response.bytes)
      = some [[0x04]] := by decide

/-! ### Witnesses: concrete values that meet a statement's hypotheses together -/

def small (events : List BusEvent) : State := machine (ready 8 16 0x3D [(0, 0x01), (15, 0x80)]) events
def fresh (events : List BusEvent) : State := machine .uninit events
/-- Fourteen transactions answered `ok`, then `e`. -/
def lateInit (e : BusEvent) : State := fresh (List.replicate 14 .ok ++ [e])
def allOk : State := fresh (List.replicate 15 .ok)

theorem handle_inv : (handle 8 16 0x3D [(0, 0x01), (15, 0x80)]).Inv cfgV := by decide +kernel
theorem cfgV_wf : cfgV.wf := by decide +kernel
theorem small_inv (events : List BusEvent) : (small events).Inv :=
  ⟨cfgV_wf, handle_inv, List.Pairwise.nil⟩

theorem witness_DecodeOfEncodeIsIdentity :
    (Instr.drawString 0 0 1 (List.replicate 255 0x42)).wf = true ∧
    (Instr.drawString (-32768) 32767 255 []).wf = true ∧ (Instr.getPixel (-1) 0).wf = true := by
  decide +kernel

theorem witness_EncodeOfDecodeRestoresPacket :
    decode [0x15, 0x01] = .ok (.invert true) ∧ reservedFlagBits [0x15, 0x01] = false ∧
    decode [0x01, 0xFF, 0x7F, 0x00, 0x80, 0x00] = .ok (.setPixel 32767 (-32768) false) ∧
    reservedFlagBits [0x01, 0xFF, 0x7F, 0x00, 0x80, 0x00] = false := ⟨rfl, rfl, rfl, rfl⟩

theorem witness_ResponseBytes :
    (∃ t, exec .clear (small []) = .next t ∧ t.responses = (small []).responses ++ [⟨.ok, none⟩]) ∧
    (∃ t, exec (.getPixel 0 0) (small []) = .next t ∧
      t.responses = (small []).responses ++ [⟨.ok, some 0x01⟩]) ∧
    (∃ t, exec (.getPixel 0 0) (fresh []) = .next t ∧
      t.responses = (fresh []).responses ++ [⟨.illegalState, some 0x00⟩]) :=
  ⟨⟨_, rfl, rfl⟩, ⟨_, rfl, rfl⟩, ⟨_, rfl, rfl⟩⟩

theorem witness_StepRunsDecodedCommand :
    (offering (.packet [0x20]) (small [])).inputs = [.packet [0x20]] ∧ decode [0x20] = .ok .showBuf ∧
    (small []).inputs = [] := ⟨rfl, rfl, rfl⟩

/-- A wrong length under GET_PIXEL's opcode, and an opcode that no row has. -/
theorem witness_IllegalPacketHasNoEffect :
    (offering (.packet [0x02, 0x00]) (small [])).inputs = [.packet [0x02, 0x00]] ∧
    (∀ i, decode [0x02, 0x00] ≠ .ok i) ∧
    (offering (.packet [0x00]) (small [])).inputs = [.packet [0x00]] ∧
    (∀ i, decode [0x00] ≠ .ok i) ∧ (small []).cfg.nfonts ≤ (2#8).toNat := by
  have h2 : decode [0x02, 0x00] = .error (.wrongLength .getPixel) := rfl
  have h0 : decode [0x00] = .error (.unknownOpcode 0x00) := rfl
  exact ⟨rfl, fun i h => (by rw [h2] at h; cases h), rfl, fun i h => (by rw [h0] at h; cases h),
    by decide⟩

theorem witness_ResetInputLeavesUninit :
    (offering .reset (small [])).inputs = [.reset] := rfl

/-- A drawing command, and an illegal packet. -/
theorem witness_ResetBeforeResponse :
    (offering (.packetThenReset [0x03]) (small [])).inputs = [.packetThenReset [0x03]] ∧
    decode [0x03] = .ok .clear ∧
    (∃ t, exec .clear { offering (.packetThenReset [0x03]) (small []) with inputs := [] } = .next t) ∧
    ∀ i, decode [0x00] ≠ .ok i := by
  have h0 : decode [0x00] = .error (.unknownOpcode 0x00) := rfl
  exact ⟨rfl, rfl, ⟨_, rfl⟩, fun i h => by rw [h0] at h; cases h⟩

theorem witness_ResetAfterShowKeepsPanel :
    (offering (.packetThenReset [0x20]) (small (List.replicate 4 .ok))).Inv ∧
    (offering (.packetThenReset [0x20]) (small (List.replicate 4 .ok))).life
      = .ready (handle 8 16 0x3D [(0, 0x01), (15, 0x80)]) ∧
    (offering (.packetThenReset [0x20]) (small (List.replicate 4 .ok))).inputs
      = [.packetThenReset [0x20]] ∧
    ∀ k < 2 * (handle 8 16 0x3D [(0, 0x01), (15, 0x80)]).pages.toNat,
      (offering (.packetThenReset [0x20]) (small (List.replicate 4 .ok))).eventAt k = .ok :=
  ⟨⟨cfgV_wf, handle_inv, List.Pairwise.nil⟩, rfl, rfl, by decide⟩

/-- INIT cut at its last transaction, SHOW before its first, DEINIT during its only one. -/
theorem witness_ResetAbandonsRunningCommand :
    ((lateInit .resetDuring).life = .uninit ∧ (8#8) ≠ 0 ∧ (16#8) ≠ 0 ∧
      (8#8).toNat * (((16#8).toNat + 7) / 8) ≤ (lateInit .resetDuring).cfg.bufCap ∧
      14 < maxTransactions (.init 8 16 0x3D false) (lateInit .resetDuring) ∧
      (∀ j < 14, (lateInit .resetDuring).eventAt j = .ok) ∧
      (lateInit .resetDuring).eventAt 14 = .resetDuring) ∧
    ((small [.resetBefore]).life = .ready (handle 8 16 0x3D [(0, 0x01), (15, 0x80)]) ∧
      0 < maxTransactions .showBuf (small [.resetBefore]) ∧
      (small [.resetBefore]).eventAt 0 = .resetBefore) ∧
    0 < maxTransactions .deinit (small [.resetDuring]) ∧
      (small [.resetDuring]).eventAt 0 = .resetDuring := by decide +kernel

theorem witness_StepKeepsInvariant :
    (offering (.packet [0x03]) (small [])).Inv ∧
    ∃ t, step (offering (.packet [0x03]) (small [])) = .next t :=
  ⟨small_inv [], _, rfl⟩

theorem witness_ParametersNeverWritten :
    ∃ t, step (offering (.packet [0x03]) (small [])) = .next t := ⟨_, rfl⟩

theorem witness_IllegalStateHasNoEffect :
    (Instr.setFont 1).legal (fresh []).cfg.nfonts = true ∧ (fresh []).life = .uninit ∧
    (Instr.init 0 0 0 false).legal (small []).cfg.nfonts = true ∧
    (small []).life = .ready (handle 8 16 0x3D [(0, 0x01), (15, 0x80)]) := by decide

theorem witness_CheckOrder :
    ((fresh []).cfg.nfonts ≤ (2#8).toNat ∧ (fresh []).life = .uninit) ∧
    (small []).life = .ready (handle 8 16 0x3D [(0, 0x01), (15, 0x80)]) ∧ ((0#8) = 0 ∨ (16#8) = 0) := by
  decide

/-- One for each result code. -/
theorem witness_ResultTable :
    (∃ t, exec .powerOn (small [.ok]) = .next t ∧ t.responses = [⟨.ok, none⟩]) ∧
    (∃ t, exec .showBuf (small [.fail]) = .next t ∧ t.responses = [⟨.ioFail, none⟩]) ∧
    (∃ t, exec (.init 0 1 0 false) (fresh []) = .next t ∧
      t.responses = [⟨.invalidGeometry, none⟩]) ∧
    (∃ t, exec .clear (fresh []) = .next t ∧ t.responses = [⟨.illegalState, none⟩]) ∧
    (∃ t, exec (.setFont 255) (fresh []) = .next t ∧ t.responses = [⟨.illegalCommand, none⟩]) ∧
    (∃ t, exec .deinit (small [.resetBefore]) = .next t ∧ t.responses = []) :=
  ⟨⟨_, rfl, rfl⟩, ⟨_, rfl, rfl⟩, ⟨_, rfl, rfl⟩, ⟨_, rfl, rfl⟩, ⟨_, rfl, rfl⟩, ⟨_, rfl, rfl⟩⟩

theorem witness_CompletesIfTransportAnswers :
    (∀ k < maxTransactions .showBuf (small [.ok, .ok, .fail, .ok]),
      (small [.ok, .ok, .fail, .ok]).eventAt k ≠ .hang) ∧
    exec .showBuf (small [.ok, .hang]) = .fault .busNeverAnswers := ⟨by decide, rfl⟩

/-- A command the state does not allow, and one it allows. -/
theorem witness_GoesWrongExactlyOnMisuse :
    (fresh []).goneWrong = false ∧
    (∃ t, step (offering (.packet [0x20]) (fresh [])) = .next t ∧ t.goneWrong = true) ∧
    ∃ t, step (offering (.packet [0x03]) (small [])) = .next t ∧ t.goneWrong = false :=
  ⟨rfl, ⟨_, rfl, rfl⟩, ⟨_, rfl, rfl⟩⟩

/-- Both lifecycle states; the last pixel of the screen, and the first off it. -/
theorem witness_SetPixelResult :
    (fresh []).life = .uninit ∧
    (small []).life = .ready (handle 8 16 0x3D [(0, 0x01), (15, 0x80)]) ∧
    (0 ≤ (7#16).toInt ∧ (7#16).toInt < (8#8).toNat ∧ 0 ≤ (15#16).toInt ∧
      (15#16).toInt < (16#8).toNat) ∧
    ¬(0 ≤ (8#16).toInt ∧ (8#16).toInt < (8#8).toNat ∧ 0 ≤ (15#16).toInt ∧
      (15#16).toInt < (16#8).toNat) := by decide

theorem witness_SetPixelReadsBack :
    (small []).life = .ready (handle 8 16 0x3D [(0, 0x01), (15, 0x80)]) ∧
    (handle 8 16 0x3D [(0, 0x01), (15, 0x80)]).onScreen (coordVal 7) (coordVal 15) ∧
    ¬(handle 8 16 0x3D [(0, 0x01), (15, 0x80)]).onScreen (coordVal 7) (coordVal 16) := by decide

theorem witness_GetPixelResult :
    (fresh []).life = .uninit ∧
    (small []).life = .ready (handle 8 16 0x3D [(0, 0x01), (15, 0x80)]) ∧
    (0 ≤ (0#16).toInt ∧ (0#16).toInt < (8#8).toNat ∧ 0 ≤ (0#16).toInt ∧
      (0#16).toInt < (16#8).toNat) ∧
    ¬(0 ≤ (65535#16).toInt ∧ (65535#16).toInt < (8#8).toNat ∧ 0 ≤ (0#16).toInt ∧
      (0#16).toInt < (16#8).toNat) := by decide

theorem witness_ClearResult :
    (fresh []).life = .uninit ∧
    (small []).life = .ready (handle 8 16 0x3D [(0, 0x01), (15, 0x80)]) ∧
    (handle 8 16 0x3D [(0, 0x01), (15, 0x80)]).Inv (small []).cfg := by decide +kernel

theorem witness_BufferFamilyFrame :
    (∃ x y, Instr.getPixel 7 15 = .getPixel x y) ∧
    (small []).life = .ready (handle 8 16 0x3D [(0, 0x01), (15, 0x80)]) ∧
    (fresh []).life = .uninit := ⟨⟨_, _, rfl⟩, rfl, rfl⟩

/-- The first and the last pixel, and the last bit of the buffer. -/
theorem witness_PixelMappingInverse :
    (handle 8 16 0x3D [(0, 0x01), (15, 0x80)]).Inv cfgV ∧
    (handle 8 16 0x3D [(0, 0x01), (15, 0x80)]).onScreen (0 : Nat) (0 : Nat) ∧
    (handle 8 16 0x3D [(0, 0x01), (15, 0x80)]).onScreen (7 : Nat) (15 : Nat) ∧
    15 < (8#8).toNat * (handle 8 16 0x3D [(0, 0x01), (15, 0x80)]).pages.toNat ∧
    15 / (8#8).toNat * 8 + 7 < (16#8).toNat := by decide +kernel

/-- Zero width, zero height, and one page too many for `BUF_CAP` (VC7). -/
theorem witness_InitRejectsGeometry :
    (fresh []).life = .uninit ∧ (0#8) = 0 ∧
    ({ fresh [] with cfg := { cfgV with bufCap := 1024 } } : State).cfg.bufCap
      < (128#8).toNat * (((65#8).toNat + 7) / 8) := by decide

/-- The largest geometry, which fills the default `BUF_CAP` exactly (VC5), and the smallest. -/
theorem witness_InitSucceeds :
    allOk.life = .uninit ∧ (255#8) ≠ 0 ∧
    (255#8).toNat * (((255#8).toNat + 7) / 8) ≤ allOk.cfg.bufCap ∧
    (1#8).toNat * (((1#8).toNat + 7) / 8) ≤ allOk.cfg.bufCap ∧
    ∀ k < 15, allOk.eventAt k = .ok := by decide +kernel

/-- A failure at the first and at the last transaction (VC9). -/
theorem witness_InitStopsAtFirstFailure :
    ((fresh [.fail]).life = .uninit ∧ (8#8) ≠ 0 ∧ (16#8) ≠ 0 ∧
      (8#8).toNat * (((16#8).toNat + 7) / 8) ≤ (fresh [.fail]).cfg.bufCap ∧
      (initFrames Wire.ssd1306 8 16 false)[0]? = some (.command .displayOff) ∧
      (fresh [.fail]).eventAt 0 = .fail) ∧
    (initFrames Wire.ssd1306 8 16 false)[14]? = some (.command .displayOn) ∧
    (∀ j < 14, (lateInit .fail).eventAt j = .ok) ∧
    (lateInit .fail).eventAt 14 = .fail := by decide +kernel

theorem witness_InitFrameSequence :
    allOk.life = .uninit ∧ (8#8) ≠ 0 ∧ (16#8) ≠ 0 ∧
    (8#8).toNat * (((16#8).toNat + 7) / 8) ≤ allOk.cfg.bufCap ∧
    ∀ k < 15, allOk.eventAt k = .ok := by decide +kernel

theorem witness_PanelAfterInit :
    allOk.life = .uninit ∧ (8#8) ≠ 0 ∧ (16#8) ≠ 0 ∧
    (8#8).toNat * (((16#8).toNat + 7) / 8) ≤ allOk.cfg.bufCap ∧
    (∀ k < 15, allOk.eventAt k = .ok) := by decide +kernel

theorem witness_DeinitResult :
    (fresh []).life = .uninit ∧
    (small [.ok]).life = .ready (handle 8 16 0x3D [(0, 0x01), (15, 0x80)]) ∧
    (small [.ok]).eventAt 0 = .ok ∧ (small [.fail]).eventAt 0 = .fail := by decide

theorem witness_CosmeticResult :
    (Instr.invert true = .invert true ∧ [0x15#8, 0x01] = [0x15, 0x01] ∧
      PanelCmd.video true = .video true ∧
      [0x00#8, 0xA7] = [(small []).cfg.wire.ctrlCmd, (small []).cfg.wire.inverse]) ∧
    (fresh []).life = .uninit ∧
    (small [.ok]).life = .ready (handle 8 16 0x3D [(0, 0x01), (15, 0x80)]) ∧
    (small [.ok]).eventAt 0 = .ok ∧ (surfacing (small [.fail])).eventAt 0 = .fail := by decide

theorem witness_OnlyInitAndDeinitChangeLifecycle :
    ∃ t, exec (.contrast 0) (small [.fail]) = .next t ∧ (small [.fail]).completedAs t .ok :=
  ⟨_, rfl, none, rfl⟩

theorem witness_ShowSucceeds :
    (small (List.replicate 4 .ok)).life = .ready (handle 8 16 0x3D [(0, 0x01), (15, 0x80)]) ∧
    ∀ k < 2 * (handle 8 16 0x3D [(0, 0x01), (15, 0x80)]).pages.toNat,
      (small (List.replicate 4 .ok)).eventAt k = .ok := by decide

theorem witness_ShowFrameSequence :
    (small (List.replicate 4 .ok)).life = .ready (handle 8 16 0x3D [(0, 0x01), (15, 0x80)]) ∧
    ∀ k < 2 * (handle 8 16 0x3D [(0, 0x01), (15, 0x80)]).pages.toNat,
      (small (List.replicate 4 .ok)).eventAt k = .ok := by decide

/-- An address frame (VF7) and the last data frame. -/
theorem witness_ShowStopsAtFirstFailure :
    ((small [.fail]).life = .ready (handle 8 16 0x3D [(0, 0x01), (15, 0x80)]) ∧
      (showFrames (handle 8 16 0x3D [(0, 0x01), (15, 0x80)]))[0]? = some (addrFrame 8 0) ∧
      (small [.fail]).eventAt 0 = .fail) ∧
    (showFrames (handle 8 16 0x3D [(0, 0x01), (15, 0x80)]))[3]?
      = some (.data [0, 0, 0, 0, 0, 0, 0, 0x80]) ∧
    (∀ j < 3, (small [.ok, .ok, .ok, .fail]).eventAt j = .ok) ∧
    (small [.ok, .ok, .ok, .fail]).eventAt 3 = .fail := by decide +kernel

/-- The first address frame and the last data frame fail; a panel already at the target. -/
theorem witness_PanelAfterFailedShow :
    ((small [.fail]).Inv ∧
      (small [.fail]).life = .ready (handle 8 16 0x3D [(0, 0x01), (15, 0x80)]) ∧
      0 < 2 * (handle 8 16 0x3D [(0, 0x01), (15, 0x80)]).pages.toNat ∧
      (small [.fail]).eventAt 0 = .fail) ∧
    ((small [.ok, .ok, .ok, .fail]).Inv ∧
      3 < 2 * (handle 8 16 0x3D [(0, 0x01), (15, 0x80)]).pages.toNat ∧
      (∀ j < 3, (small [.ok, .ok, .ok, .fail]).eventAt j = .ok) ∧
      (small [.ok, .ok, .ok, .fail]).eventAt 3 = .fail) ∧
    ({ small [.fail] with panel := { Panel.unknown with target := some 0x3D } } : State).panel.target
      = some (handle 8 16 0x3D [(0, 0x01), (15, 0x80)]).address :=
  ⟨⟨small_inv _, rfl, by decide, rfl⟩, ⟨small_inv _, by decide, by decide, rfl⟩, rfl⟩

theorem witness_FailedControlFrameLosesPanel :
    (small [.fail]).life = .ready (handle 8 16 0x3D [(0, 0x01), (15, 0x80)]) ∧
    (small [.fail]).eventAt 0 = .fail := by decide

theorem witness_ShowNeverWritesHandle :
    (∃ t, exec .showBuf (small (List.replicate 4 .ok)) = .next t ∧
      (small (List.replicate 4 .ok)).completedAs t .ok) ∧
    ∃ t, exec .showBuf (small [.fail]) = .next t ∧ (small [.fail]).completedAs t .ioFail :=
  ⟨⟨_, rfl, none, rfl⟩, ⟨_, rfl, none, rfl⟩⟩

theorem witness_ShowAfterClearSendsZeros :
    (small (List.replicate 4 .ok)).Inv ∧
    (small (List.replicate 4 .ok)).life = .ready (handle 8 16 0x3D [(0, 0x01), (15, 0x80)]) ∧
    ∀ k < 2 * (handle 8 16 0x3D [(0, 0x01), (15, 0x80)]).pages.toNat,
      (small (List.replicate 4 .ok)).eventAt k = .ok :=
  ⟨small_inv _, rfl, by decide⟩

theorem witness_PanelHoldsBufferAfterShow :
    (small (List.replicate 4 .ok)).Inv ∧
    (small (List.replicate 4 .ok)).life = .ready (handle 8 16 0x3D [(0, 0x01), (15, 0x80)]) ∧
    (∃ t, exec .showBuf (small (List.replicate 4 .ok)) = .next t ∧
      (small (List.replicate 4 .ok)).completedAs t .ok) ∧
    1 < (handle 8 16 0x3D [(0, 0x01), (15, 0x80)]).pages.toNat ∧ 7 < (8#8).toNat :=
  ⟨small_inv _, rfl, ⟨_, rfl, none, rfl⟩, by decide, by decide⟩

/-- A machine before a panel that is on or off, and inverted. -/
def lightPanel (on : Bool) : State :=
  { small (List.replicate 4 .ok) with
    panel := { Panel.unknown with target := some 0x3D, power := some on, inverted := some true } }

theorem witness_LitPictureAfterShow (on : Bool) :
    (lightPanel on).Inv ∧
    (lightPanel on).life = .ready (handle 8 16 0x3D [(0, 0x01), (15, 0x80)]) ∧
    (∃ t, exec .showBuf (lightPanel on) = .next t ∧ (lightPanel on).completedAs t .ok ∧
      t.panel.power = some on ∧ t.panel.inverted = some true) ∧ 7 < (8#8).toNat ∧ 15 < (16#8).toNat :=
  ⟨⟨cfgV_wf, handle_inv, List.Pairwise.nil⟩, rfl, ⟨_, rfl, ⟨none, rfl⟩, rfl, rfl⟩, by decide, by decide⟩

/-- The first and the last code of `TF`, and the codes next to them. -/
theorem witness_FontLookupRule :
    fontTF.wf ∧ (fontTF.first.toNat ≤ (0x41#8).toNat ∧ (0x41#8).toNat ≤ fontTF.last.toNat) ∧
    (fontTF.first.toNat ≤ (0x45#8).toNat ∧ (0x45#8).toNat ≤ fontTF.last.toNat) ∧
    ¬(fontTF.first.toNat ≤ (0x40#8).toNat ∧ (0x40#8).toNat ≤ fontTF.last.toNat) ∧
    ¬(fontTF.first.toNat ≤ (0x46#8).toNat ∧ (0x46#8).toNat ≤ fontTF.last.toNat) := by decide

/-- The pixel of the glyph 'A' at the corner of the screen is painted, its neighbour is not, and on a
screen with padding a padding bit is no pixel. -/
theorem witness_DrawCharClosedForm :
    (small []).life = .ready (handle 8 16 0x3D [(0, 0x01), (15, 0x80)]) ∧
    (handle 8 16 0x3D [(0, 0x01), (15, 0x80)]).onScreen 7 15 ∧
    painted cfgV 0 (7#16).toInt (15#16).toInt (1#8).toNat 0x41 7 15 ∧
    ¬painted cfgV 0 (7#16).toInt (15#16).toInt (1#8).toNat 0x41 7 14 ∧
    ∀ X Y : Int, (handle 8 12 0x3D []).onScreen X Y →
      ¬(15 = (handle 8 12 0x3D []).idx X Y ∧ 4 = bitOf Y) := by
  refine ⟨rfl, by decide, ⟨by decide, _, rfl, by decide⟩, ?_, ?_⟩
  · rintro ⟨-, -, -, -, -, h, -⟩
    exact absurd h (by decide)
  · rintro X Y ⟨hX, hX8, hY, hY12⟩ ⟨h1, h2⟩
    have e8 : byteVal (handle 8 12 0x3D []).width = 8 := rfl
    have e12 : byteVal (handle 8 12 0x3D []).height = 12 := rfl
    rw [e8] at hX8
    rw [e12] at hY12
    simp only [Handle.idx, bitOf, pageRows, e8] at h1 h2
    omega

theorem witness_DrawCharLaneForm :
    (small []).Inv ∧ (small []).life = .ready (handle 8 16 0x3D [(0, 0x01), (15, 0x80)]) ∧
    7 < (handle 8 16 0x3D [(0, 0x01), (15, 0x80)]).width.toNat ∧
    1 < (handle 8 16 0x3D [(0, 0x01), (15, 0x80)]).pages.toNat :=
  ⟨small_inv _, rfl, by decide, by decide⟩

theorem witness_DrawCharIdempotentMonotone :
    (small []).Inv ∧ (small []).life = .ready (handle 8 16 0x3D [(0, 0x01), (15, 0x80)]) ∧
    (handle 8 16 0x3D [(0, 0x01), (15, 0x80)]).pix 7 15 = true :=
  ⟨small_inv _, rfl, by decide⟩

/-- 'B' drawn at the right edge turns a pixel on. -/
theorem witness_DrawCharStaysInCell :
    (nextOf (exec (.drawChar 7 0 1 0x42) (small []))).map (fun t => t.life)
      = some (ready 8 16 0x3D [(0, 0x01), (7, 0x7F), (15, 0x80)]) ∧
    (handle 8 16 0x3D [(0, 0x01), (7, 0x7F), (15, 0x80)]).pix 7 6 = true ∧
    (handle 8 16 0x3D [(0, 0x01), (15, 0x80)]).pix 7 6 = false := by decide +kernel

/-- A code below the font, scale 0, and a glyph with only bit 7 set. -/
theorem witness_BlankDrawingsDrawNothing :
    (small []).life = .ready (handle 8 16 0x3D [(0, 0x01), (15, 0x80)]) ∧
    activeGlyph cfgV 0 0x40 = none ∧ (0#8) = 0 ∧
    activeGlyph { cfgV with font0 := ⟨0x41, 0x41, [0x80, 0x80, 0x80, 0x80, 0x80]⟩ } 0 0x41
      = some [0x80, 0x80, 0x80, 0x80, 0x80] ∧
    ∀ v ∈ [0x80#8, 0x80, 0x80, 0x80, 0x80], v &&& 0x7F#8 = 0 := by decide

theorem witness_DrawStringClosedForm :
    (small []).life = .ready (handle 8 16 0x3D [(0, 0x01), (15, 0x80)]) ∧
    (handle 8 16 0x3D [(0, 0x01), (15, 0x80)]).onScreen 6 6 ∧
    [0x41#8, 0x42][1]? = some 0x42 ∧
    painted cfgV 0 ((0#16).toInt + (1 : Nat) * 6 * (1#8).toNat) (0#16).toInt (1#8).toNat 0x42 6 6 :=
  ⟨rfl, by decide, rfl, by decide, _, rfl, by decide⟩

/-- The largest cursor that is still an `i16`. -/
theorem witness_DrawStringIsDrawChars :
    (small []).life = .ready (handle 8 16 0x3D [(0, 0x01), (15, 0x80)]) ∧
    (32767#16).toInt = (31237#16).toInt + 6 * (255#8).toNat ∧
    (0#16).toInt = (0#16).toInt + 6 * (0#8).toNat := by decide

theorem witness_DrawStringFootprint :
    (nextOf (exec (.drawString 0 0 1 [0x40, 0x42]) (small []))).map (fun t => t.life)
      = some (ready 8 16 0x3D [(0, 0x01), (6, 0x7F), (15, 0x80)]) ∧
    (handle 8 16 0x3D [(0, 0x01), (6, 0x7F), (15, 0x80)]).pix 6 6 = true ∧
    (handle 8 16 0x3D [(0, 0x01), (15, 0x80)]).pix 6 6 = false := by decide +kernel

/-- The last wired font and the first that is not, in both lifecycle states. -/
theorem witness_SetFontResult :
    (small []).cfg.nfonts ≤ (2#8).toNat ∧ (1#8).toNat < (small []).cfg.nfonts ∧
    (fresh []).life = .uninit ∧ (1#8).toNat < (fresh []).cfg.nfonts ∧
    (small []).life = .ready (handle 8 16 0x3D [(0, 0x01), (15, 0x80)]) := by decide

theorem witness_RasterFamilyFrame :
    (∃ id, Instr.setFont 255 = .setFont id) ∧
    (∃ x y sc str, Instr.drawString 0 0 1 [0x41] = .drawString x y sc str) ∧
    (small []).life = .ready (handle 8 16 0x3D [(0, 0x01), (15, 0x80)]) ∧ (fresh []).life = .uninit :=
  ⟨⟨_, rfl⟩, ⟨_, _, _, _, rfl⟩, rfl, rfl⟩

theorem witness_BusTrafficRules :
    (∃ t, exec .showBuf (small [.ok, .fail]) = .next t ∧ (small [.ok, .fail]).completedAs t .ioFail) ∧
    ∃ t, exec (.init 8 16 0x3D false) (fresh [.fail]) = .next t ∧
      (fresh [.fail]).completedAs t .ioFail :=
  ⟨⟨_, rfl, none, rfl⟩, ⟨_, rfl, none, rfl⟩⟩

/-- INIT stuck at its last transaction, POWERON at its only one, SHOW at its last. -/
theorem witness_StuckAtUnansweredTransaction :
    (14 < maxTransactions (.init 8 16 0x3D false) (lateInit .hang) ∧
      (∀ j < 14, (lateInit .hang).eventAt j = .ok) ∧
      (lateInit .hang).eventAt 14 = .hang ∧
      (lateInit .hang).life = .uninit ∧ (8#8) ≠ 0 ∧ (16#8) ≠ 0 ∧
      (8#8).toNat * (((16#8).toNat + 7) / 8) ≤ cfgV.bufCap) ∧
    ((small [.hang]).life = .ready (handle 8 16 0x3D [(0, 0x01), (15, 0x80)]) ∧
      0 < maxTransactions .powerOn (small [.hang]) ∧ (small [.hang]).eventAt 0 = .hang) ∧
    3 < maxTransactions .showBuf (small [.ok, .ok, .ok, .hang]) ∧
      (∀ j < 3, (small [.ok, .ok, .ok, .hang]).eventAt j = .ok) ∧
      (small [.ok, .ok, .ok, .hang]).eventAt 3 = .hang := by decide +kernel

end Sys2Proof.Tests
end

/-! ### What a step takes from the command port -/

namespace Sys2Proof.Machine

theorem step_of_idle {s : State} (h : s.inputs = []) : step s = .next s := by
  simp only [step, fetchInput, h]

theorem step_of_reset {s : State} {rest : List Input} (h : s.inputs = .reset :: rest) :
    step s = .next ({ s with inputs := rest } : State).hardReset := by
  simp only [step, fetchInput, h]

theorem step_of_packet {s : State} {p : List Byte} {rest : List Input}
    (h : s.inputs = .packet p :: rest) : step s = runPacket p { s with inputs := rest } := by
  simp only [step, fetchInput, h]

theorem step_of_packetThenReset {s : State} {p : List Byte} {rest : List Input}
    (h : s.inputs = .packetThenReset p :: rest) :
    step s = runThenReset p { s with inputs := rest } := by
  simp only [step, fetchInput, h]

/-! ### A property of every state that an outcome or a bus sequence leaves -/

/-- Every next state that the outcome answers with meets `P`. -/
def NextAll (P : State → Prop) : Outcome → Prop
  | .next t => P t
  | .fault _ | .refused _ => True

/-- Every state in which the sequence of transactions can leave the block meets `P`. -/
def BusEnd.All (P : State → Prop) : BusEnd → Prop
  | .ok t | .fail t | .reset t => P t
  | .stuck => True

theorem nextAll_complete {P : State → Prop} {r : Result} {s : State} (h : P (s.respond ⟨r, none⟩)) :
    NextAll P (complete r s) := h

theorem nextAll_whenReady {P : State → Prop} {s : State} {body : Handle → Outcome}
    (huninit : NextAll P (complete .illegalState s)) (hready : ∀ h, NextAll P (body h)) :
    NextAll P (whenReady s body) := by
  unfold whenReady
  split
  · exact huninit
  · exact hready _

theorem nextAll_afterBus {P : State → Prop} {e : BusEnd} {onOk onFail : State → Outcome}
    (he : e.All P) (hok : ∀ t, P t → NextAll P (onOk t)) (hfail : ∀ t, P t → NextAll P (onFail t)) :
    NextAll P (afterBus e onOk onFail) := by
  cases e with
  | ok t => exact hok t he
  | fail t => exact hfail t he
  | reset t => exact he
  | stuck => trivial

theorem nextAll_runThenReset {P : State → Prop} {p : List Byte} {s : State}
    (h : NextAll (fun t => P (t.abandon s.responses)) (runPacket p s)) :
    NextAll P (runThenReset p s) := by
  unfold runThenReset
  cases hrun : runPacket p s with
  | next t => rw [hrun] at h; exact h
  | fault | refused => trivial

/-! ### The parameters of R7 -/

/-- However a sequence of transactions ends, the parameters are as before. -/
theorem sendAll_keepsCfg (a : Byte) (fs : List BusFrame) (s : State) :
    (sendAll a fs s).All (·.cfg = s.cfg) := by
  obtain ⟨-, hend⟩ | ⟨fs1, f, fs2, -, -, ⟨-, hend⟩ | ⟨-, hend⟩ | ⟨-, hend⟩ | ⟨-, hend⟩⟩ :=
    sendAll_cases a fs s <;> simp [hend, BusEnd.All]

theorem busWrite_keepsCfg (a : Byte) (f : BusFrame) (s : State) :
    (busWrite a f s).All (·.cfg = s.cfg) := by
  rw [busWrite_eq_sendAll]
  exact sendAll_keepsCfg a [f] s

theorem complete_keepsCfg {s t : State} (r : Result) (h : t.cfg = s.cfg) :
    NextAll (·.cfg = s.cfg) (complete r t) :=
  nextAll_complete (by rw [State.respond_cfg, h])

/-- A command with the state check alone before it, whose body keeps the parameters. -/
theorem whenReady_keepsCfg {s : State} {body : Handle → Outcome}
    (hready : ∀ h, NextAll (·.cfg = s.cfg) (body h)) : NextAll (·.cfg = s.cfg) (whenReady s body) :=
  nextAll_whenReady (complete_keepsCfg _ rfl) hready

theorem cosmetic_keepsCfg (c : PanelCmd) (s : State) : NextAll (·.cfg = s.cfg) (cosmetic c s) :=
  whenReady_keepsCfg fun _ =>
    nextAll_afterBus (busWrite_keepsCfg _ _ s)
      (fun _ ht => complete_keepsCfg _ ht) (fun _ ht => complete_keepsCfg _ ht)

theorem execGetPixel_keepsCfg (x y : Coord) (s : State) :
    NextAll (·.cfg = s.cfg) (execGetPixel x y s) := by
  unfold execGetPixel
  cases s.life with
  | uninit | ready => exact State.respond_cfg s _

theorem execInit_keepsCfg (w h a : Byte) (e : Bool) (s : State) :
    NextAll (·.cfg = s.cfg) (execInit w h a e s) := by
  unfold execInit
  cases s.life with
  | ready => exact complete_keepsCfg _ rfl
  | uninit =>
    split_ifs
    · exact complete_keepsCfg _ rfl
    · exact complete_keepsCfg _ rfl
    · exact nextAll_afterBus (sendAll_keepsCfg _ _ s)
        (fun _ ht => complete_keepsCfg _ (by simpa using ht)) (fun _ ht => complete_keepsCfg _ ht)

theorem execDeinit_keepsCfg (s : State) : NextAll (·.cfg = s.cfg) (execDeinit s) :=
  whenReady_keepsCfg fun _ =>
    nextAll_afterBus (busWrite_keepsCfg _ _ s)
      (fun t ht => complete_keepsCfg _ ((State.release_cfg t).trans ht))
      (fun t ht => complete_keepsCfg _ ((State.release_cfg t).trans ht))

theorem execShow_keepsCfg (s : State) : NextAll (·.cfg = s.cfg) (execShow s) :=
  whenReady_keepsCfg fun _ =>
    nextAll_afterBus (sendAll_keepsCfg _ _ s)
      (fun _ ht => complete_keepsCfg _ ht) (fun _ ht => complete_keepsCfg _ ht)

theorem execSetFont_keepsCfg (id : Byte) (s : State) :
    NextAll (·.cfg = s.cfg) (execSetFont id s) := by
  unfold execSetFont
  split_ifs
  · exact whenReady_keepsCfg fun _ => complete_keepsCfg _ (State.withHandle_cfg s _)
  · exact complete_keepsCfg _ rfl

theorem exec_keepsCfg (i : Instr) (s : State) : NextAll (·.cfg = s.cfg) (exec i s) := by
  cases i with
  | setPixel | clear | drawChar | drawString =>
    exact whenReady_keepsCfg fun _ => complete_keepsCfg _ (State.withHandle_cfg s _)
  | powerOn | powerOff | contrast | invert => exact cosmetic_keepsCfg _ s
  | getPixel x y => exact execGetPixel_keepsCfg x y s
  | init w h a e => exact execInit_keepsCfg w h a e s
  | deinit => exact execDeinit_keepsCfg s
  | showBuf => exact execShow_keepsCfg s
  | setFont id => exact execSetFont_keepsCfg id s

theorem runPacket_keepsCfg (p : List Byte) (s : State) :
    NextAll (·.cfg = s.cfg) (runPacket p s) := by
  unfold runPacket
  cases decode p with
  | error e => exact State.respond_cfg s _
  | ok i => exact exec_keepsCfg i s

theorem step_keepsCfg (s : State) : NextAll (·.cfg = s.cfg) (step s) := by
  match hin : s.inputs with
  | [] => rw [step_of_idle hin]; rfl
  | .reset :: rest => rw [step_of_reset hin]; exact State.hardReset_cfg _
  | .packet p :: rest => rw [step_of_packet hin]; exact runPacket_keepsCfg p _
  | .packetThenReset p :: rest =>
    rw [step_of_packetThenReset hin]
    exact nextAll_runThenReset (by simpa using runPacket_keepsCfg p { s with inputs := rest })

end Sys2Proof.Machine

/-- Settles O16: every command's end, every end of a bus sequence and every reset keeps the
parameters (R7, R30), hence so does every step. -/
theorem parametersNeverWritten : Obligations.ParametersNeverWritten := by
  intro s t hstep
  have hkeeps := Sys2Proof.Machine.step_keepsCfg s
  rw [hstep] at hkeeps
  exact hkeeps

namespace Sys2Proof.Machine

/-! ### What an outcome and the end of a bus sequence can be -/

theorem NextAll.mono {P Q : State → Prop} {o : Outcome} (h : NextAll P o) (hPQ : ∀ t, P t → Q t) :
    NextAll Q o := by
  cases o with
  | next t => exact hPQ t h
  | fault | refused => trivial

theorem BusEnd.All.and {P Q : State → Prop} {e : BusEnd} (hP : e.All P) (hQ : e.All Q) :
    e.All fun t => P t ∧ Q t := by
  cases e with
  | ok | fail | reset => exact ⟨hP, hQ⟩
  | stuck => trivial

/-- The body of `whenReady` runs on the handle that is there. -/
theorem nextAll_whenReady_of_life {P : State → Prop} {s : State} {body : Handle → Outcome}
    (huninit : NextAll P (complete .illegalState s))
    (hready : ∀ h, s.life = .ready h → NextAll P (body h)) : NextAll P (whenReady s body) := by
  unfold whenReady
  split
  next => exact huninit
  next h hlife => exact hready h hlife

/-- A property that every answered transaction and both resets keep holds however a sequence of
transactions ends. -/
theorem sendAll_all {P : State → Prop} {a : Byte}
    (hrecord : ∀ t f o, P t → P (t.dropEvent.record a f o))
    (hhard : ∀ t, P t → P t.dropEvent.hardReset) (hcut : ∀ t, P t → P t.dropEvent.cutReset)
    (fs : List BusFrame) {s : State} (hs : P s) : (sendAll a fs s).All P := by
  induction fs generalizing s with
  | nil => exact hs
  | cons f fs ih =>
    rw [sendAll, busWrite]
    cases s.nextEvent with
    | ok => exact ih (hrecord s f .ok hs)
    | fail => exact hrecord s f .fail hs
    | hang => trivial
    | resetBefore => exact hhard s hs
    | resetDuring => exact hcut s hs

theorem whenReady_of_ready {s : State} {h : Handle} (hlife : s.life = .ready h)
    (body : Handle → Outcome) : whenReady s body = body h := by
  rw [whenReady, hlife]

theorem busWrite_of_fail {s : State} (a : Byte) (f : BusFrame) (hev : s.eventAt 0 = .fail) :
    busWrite a f s = .fail (s.dropEvent.record a f .fail) := by
  rw [busWrite_eq, hev]

/-! ### The frames of SHOW -/

/-- The frames of the pages before page `p` (R171). -/
def framesBefore (h : Handle) (p : Nat) : List BusFrame := (List.range p).flatMap (pageFrames h)

theorem framesBefore_length (h : Handle) (p : Nat) : (framesBefore h p).length = 2 * p := by
  simp [framesBefore, pageFrames, List.length_flatMap, Nat.mul_comm]

theorem showFrames_length (h : Handle) : (showFrames h).length = 2 * h.pages.toNat :=
  framesBefore_length h h.pages.toNat

/-! ### The invariant of the state -/

theorem State.inv_respond {s : State} (r : Response) (hs : s.Inv) : (s.respond r).Inv := hs

theorem State.inv_withHandle {s : State} {h : Handle} (hs : s.Inv) (hh : h.Inv s.cfg) :
    (s.withHandle h).Inv := by
  obtain ⟨hcfg, -, hdev⟩ := hs
  exact ⟨hcfg, hh, hdev⟩

theorem State.inv_handle {s : State} {h : Handle} (hs : s.Inv) (hlife : s.life = .ready h) :
    h.Inv s.cfg := by
  obtain ⟨-, hh, -⟩ := hs
  rwa [hlife] at hh

theorem State.inv_panel {s : State} (hs : s.Inv) : Cells.sorted s.panel.dev := by
  obtain ⟨-, -, hdev⟩ := hs
  exact hdev

/-- The invariant asks nothing of the block in `UNINIT`, nor of the responses and the outside. -/
theorem State.inv_of_uninit {s t : State} (hs : s.Inv) (hcfg : t.cfg = s.cfg)
    (hlife : t.life = .uninit) (hdev : Cells.sorted t.panel.dev) : t.Inv := by
  obtain ⟨hwf, -, -⟩ := hs
  refine ⟨hcfg ▸ hwf, ?_, hdev⟩
  rw [hlife]
  trivial

theorem State.inv_hardReset {s : State} (hs : s.Inv) : s.hardReset.Inv :=
  State.inv_of_uninit hs rfl rfl (State.inv_panel (s := s) hs)

theorem State.inv_cutReset {s : State} (hs : s.Inv) : s.cutReset.Inv :=
  State.inv_of_uninit hs rfl rfl List.Pairwise.nil

theorem State.inv_release {s : State} (hs : s.Inv) : s.release.Inv :=
  State.inv_of_uninit hs rfl rfl (State.inv_panel (s := s) hs)

theorem State.inv_abandon {s : State} (before : List Response) (hs : s.Inv) :
    (s.abandon before).Inv := State.inv_hardReset (s := s) hs

theorem State.inv_dropEvent {s : State} (hs : s.Inv) : s.dropEvent.Inv := hs

theorem State.inv_forgetPicture {s : State} (hs : s.Inv) : s.forgetPicture.Inv := by
  obtain ⟨hcfg, hlife, hdev⟩ := hs
  exact ⟨hcfg, hlife, Panel.sorted_forget hdev none⟩

theorem State.inv_record {s : State} (a : Byte) (f : BusFrame) (o : BusOutcome) (hs : s.Inv) :
    (s.record a f o).Inv := by
  obtain ⟨hcfg, hlife, hdev⟩ := hs
  refine ⟨hcfg, hlife, ?_⟩
  cases o with
  | ok => exact Panel.sorted_accept (Panel.sorted_at hdev a) _ f
  | fail => exact Panel.sorted_lose (Panel.sorted_at hdev a) f

/-- However a sequence of transactions ends, the invariant holds. -/
theorem sendAll_inv (a : Byte) (fs : List BusFrame) {s : State} (hs : s.Inv) :
    (sendAll a fs s).All State.Inv :=
  sendAll_all (fun _ f o ht => State.inv_record a f o (State.inv_dropEvent ht))
    (fun _ ht => State.inv_hardReset (State.inv_dropEvent ht))
    (fun _ ht => State.inv_cutReset (State.inv_dropEvent ht)) fs hs

theorem complete_inv (r : Result) {s : State} (hs : s.Inv) : NextAll State.Inv (complete r s) :=
  nextAll_complete (State.inv_respond _ hs)

/-- A command with the state check alone before it, whose body keeps the invariant. -/
theorem whenReady_inv {s : State} {body : Handle → Outcome} (hs : s.Inv)
    (hready : ∀ h, h.Inv s.cfg → NextAll State.Inv (body h)) :
    NextAll State.Inv (whenReady s body) :=
  nextAll_whenReady_of_life (complete_inv _ hs) fun h hlife =>
    hready h (State.inv_handle hs hlife)

/-- A command that completes with `OK` and a handle computed from the one that is there. -/
theorem whenReady_withHandle_inv {s : State} {g : Handle → Handle} (hs : s.Inv)
    (hg : ∀ h, h.Inv s.cfg → (g h).Inv s.cfg) :
    NextAll State.Inv (whenReady s fun h => complete .ok (s.withHandle (g h))) :=
  whenReady_inv hs fun h hh => complete_inv _ (State.inv_withHandle hs (hg h hh))

theorem busWrite_inv (a : Byte) (f : BusFrame) {s : State} (hs : s.Inv) :
    (busWrite a f s).All State.Inv := by
  rw [busWrite_eq_sendAll]
  exact sendAll_inv a [f] hs

theorem cosmetic_inv (c : PanelCmd) {s : State} (hs : s.Inv) :
    NextAll State.Inv (cosmetic c s) :=
  whenReady_inv hs fun _ _ =>
    nextAll_afterBus (busWrite_inv _ _ hs)
      (fun _ ht => complete_inv _ ht) (fun _ ht => complete_inv _ ht)

/-! ### The handles that the commands leave -/

/-- CLEAR leaves every byte of the buffer 0, the padding bits among them (R33, R125). -/
theorem Handle.inv_clear {cfg : Config} {h : Handle} (hh : h.Inv cfg) :
    Handle.Inv cfg { h with buf := zeroBytes h.buf h.size } := by
  obtain ⟨hw, hht, hp, hf, hcap, hbuf, hbelow, -⟩ := hh
  refine ⟨hw, hht, hp, hf, hcap, Memory.wf_zeroBytes _ hbuf,
    Memory.zeroBytes_below _ _ le_rfl hbelow, fun i hi b _ _ => ?_⟩
  have hzero : (zeroBytes h.buf h.size).read i = 0 :=
    (Memory.read_zeroBytes _ _ _).trans (if_pos hi)
  simp [hzero]

theorem Handle.inv_fontSel {cfg : Config} {h : Handle} {id : Byte} (hh : h.Inv cfg)
    (hid : byteVal id < cfg.nfonts) : Handle.Inv cfg { h with fontSel := id } := by
  obtain ⟨hw, hht, hp, -, hrest⟩ := hh
  exact ⟨hw, hht, hp, hid, hrest⟩

/-- `PAGES` has room for every height's page count (R23). -/
theorem pagesOf_toNat (height : Byte) : (pagesOf height).toNat = (byteVal height + 7) / 8 := by
  have := height.isLt
  simp only [pagesOf, pageRows, byteVal, BitVec.toNat_ofNat]
  omega

/-- A geometry that INIT accepts gives a legal handle (R141, R142). -/
theorem freshHandle_inv {cfg : Config} {w h : Byte} (a : Byte) (evcc : Bool) (hw : w ≠ 0)
    (hh : h ≠ 0) (hcap : byteVal w * (pagesOf h).toNat ≤ cfg.bufCap) :
    (freshHandle w h a evcc).Inv cfg := by
  have hw' : 1 ≤ byteVal w := Nat.one_le_iff_ne_zero.mpr fun h0 => hw (BitVec.eq_of_toNat_eq h0)
  have hh' : 1 ≤ byteVal h := Nat.one_le_iff_ne_zero.mpr fun h0 => hh (BitVec.eq_of_toNat_eq h0)
  exact ⟨hw', hh', pagesOf_toNat h, Nat.succ_pos _, hcap,
    ⟨List.Pairwise.nil, by simp [freshHandle]⟩, by simp [freshHandle], fun i _ b _ _ => by simp [freshHandle]⟩

/-! ### Every command keeps the invariant -/

theorem execGetPixel_inv (x y : Coord) {s : State} (hs : s.Inv) :
    NextAll State.Inv (execGetPixel x y s) := by
  unfold execGetPixel
  split
  · exact State.inv_respond _ hs
  · exact State.inv_respond _ hs

/-- The frames of INIT change neither the parameters nor the invariant, so the geometry it checked
still fits when the handle is made. -/
theorem execInit_inv (w h a : Byte) (evcc : Bool) {s : State} (hs : s.Inv) :
    NextAll State.Inv (execInit w h a evcc s) := by
  unfold execInit
  split
  · exact complete_inv _ hs
  · split_ifs with hzero hcap
    · exact complete_inv _ hs
    · exact complete_inv _ hs
    · obtain ⟨hw, hh⟩ := not_or.mp hzero
      refine NextAll.mono (P := fun t => t.Inv ∧ t.cfg = s.cfg)
        (nextAll_afterBus ?_ ?_ ?_) fun _ => And.left
      · exact (sendAll_inv _ _ hs).and (sendAll_keepsCfg _ _ s)
      · rintro t ⟨ht, hcfg⟩
        have hfresh : (freshHandle w h a evcc).Inv t.cfg :=
          freshHandle_inv a evcc hw hh (hcfg ▸ not_lt.mp hcap)
        have hready : (t.forgetPicture.withHandle (freshHandle w h a evcc)).Inv :=
          State.inv_withHandle (State.inv_forgetPicture ht) hfresh
        exact nextAll_complete ⟨State.inv_respond _ hready, hcfg⟩
      · exact fun t ht => nextAll_complete ht

theorem execDeinit_inv {s : State} (hs : s.Inv) : NextAll State.Inv (execDeinit s) :=
  whenReady_inv hs fun _ _ =>
    nextAll_afterBus (busWrite_inv _ _ hs)
      (fun _ ht => complete_inv _ (State.inv_release ht))
      (fun _ ht => complete_inv _ (State.inv_release ht))

theorem execShow_inv {s : State} (hs : s.Inv) : NextAll State.Inv (execShow s) :=
  whenReady_inv hs fun _ _ =>
    nextAll_afterBus (sendAll_inv _ _ hs)
      (fun _ ht => complete_inv _ ht) (fun _ ht => complete_inv _ ht)

theorem execSetFont_inv (id : Byte) {s : State} (hs : s.Inv) :
    NextAll State.Inv (execSetFont id s) := by
  unfold execSetFont
  split_ifs with hid
  · exact whenReady_withHandle_inv hs fun _ hh => Handle.inv_fontSel hh hid
  · exact complete_inv _ hs

theorem exec_inv (i : Instr) {s : State} (hs : s.Inv) : NextAll State.Inv (exec i s) := by
  cases i with
  | setPixel x y on =>
    exact whenReady_withHandle_inv hs fun h hh =>
      Handle.inv_setPixel (coordVal x) (coordVal y) on hh
  | getPixel x y => exact execGetPixel_inv x y hs
  | clear => exact whenReady_withHandle_inv hs fun h hh => Handle.inv_clear hh
  | init w h a e => exact execInit_inv w h a e hs
  | deinit => exact execDeinit_inv hs
  | powerOn | powerOff | contrast | invert => exact cosmetic_inv _ hs
  | showBuf => exact execShow_inv hs
  | drawChar x y sc c =>
    exact whenReady_withHandle_inv hs fun h hh =>
      (Paints.char s.cfg (coordVal x) (coordVal y) (byteVal sc) c h).inv s.cfg hh
  | drawString x y sc str =>
    exact whenReady_withHandle_inv hs fun h hh =>
      (Paints.string s.cfg (coordVal x) (coordVal y) (byteVal sc) 0 str h).inv s.cfg hh
  | setFont id => exact execSetFont_inv id hs

theorem runPacket_inv (p : List Byte) {s : State} (hs : s.Inv) :
    NextAll State.Inv (runPacket p s) := by
  unfold runPacket
  cases decode p with
  | error e => exact State.inv_respond _ hs
  | ok i => exact exec_inv i hs

theorem step_inv {s : State} (hs : s.Inv) : NextAll State.Inv (step s) := by
  match hin : s.inputs with
  | [] => rw [step_of_idle hin]; exact hs
  | .reset :: rest => rw [step_of_reset hin]; exact State.inv_hardReset hs
  | .packet p :: rest => rw [step_of_packet hin]; exact runPacket_inv p hs
  | .packetThenReset p :: rest =>
    rw [step_of_packetThenReset hin]
    exact nextAll_runThenReset ((runPacket_inv (s := { s with inputs := rest }) p hs).mono
      fun _ ht => State.inv_abandon _ ht)

end Sys2Proof.Machine

/-- Settles O15: every operation on the state keeps the invariant, hence so do every command, every
end of a bus sequence and every reset. -/
theorem stepKeepsInvariant : Obligations.StepKeepsInvariant := by
  intro s t hs hstep
  have hkeeps := Sys2Proof.Machine.step_inv hs
  rw [hstep] at hkeeps
  exact hkeeps

namespace Sys2Proof.Machine

/-! ### A failed control frame -/

/-- A failed frame that is no address frame leaves a panel of which nothing is known. -/
theorem record_fail_command_panel (s : State) (a : Byte) {c : PanelCmd}
    (hc : ∀ c0 c1 p0 p1, c ≠ .address c0 c1 p0 p1) :
    (s.record a (.command c) .fail).panel = Panel.unknown :=
  Panel.lose_command _ c hc

theorem cosmetic_of_fail {s : State} {h : Handle} {c : PanelCmd} (hlife : s.life = .ready h)
    (hc : ∀ c0 c1 p0 p1, c ≠ .address c0 c1 p0 p1) (hev : s.eventAt 0 = .fail) :
    ∃ t, cosmetic c s = .next t ∧ t.panel = Panel.unknown := by
  rw [cosmetic, whenReady_of_ready hlife, busWrite_of_fail _ _ hev]
  exact ⟨_, rfl, record_fail_command_panel s.dropEvent h.address hc⟩

theorem execDeinit_of_fail {s : State} {h : Handle} (hlife : s.life = .ready h)
    (hev : s.eventAt 0 = .fail) : ∃ t, execDeinit s = .next t ∧ t.panel = Panel.unknown := by
  rw [execDeinit, whenReady_of_ready hlife, busWrite_of_fail _ _ hev]
  exact ⟨_, rfl, record_fail_command_panel (c := .displayOff) s.dropEvent h.address nofun⟩

end Sys2Proof.Machine

/-- Settles O13: the reset state lists no byte of the panel's memory. -/
theorem resetState : Obligations.ResetState :=
  ⟨rfl, rfl, fun _ _ => rfl, rfl⟩

/-- Settles O40: each of the five commands sends one frame, and none of them is an address frame. -/
theorem failedControlFrameLosesPanel : Obligations.FailedControlFrameLosesPanel := by
  rintro i s h hlife (rfl | rfl | rfl | ⟨v, rfl⟩ | ⟨f, rfl⟩) hev
  · exact Sys2Proof.Machine.execDeinit_of_fail hlife hev
  · exact Sys2Proof.Machine.cosmetic_of_fail hlife nofun hev
  · exact Sys2Proof.Machine.cosmetic_of_fail hlife nofun hev
  · exact Sys2Proof.Machine.cosmetic_of_fail hlife nofun hev
  · exact Sys2Proof.Machine.cosmetic_of_fail hlife nofun hev

namespace Sys2Proof.Machine

/-! ### What a completed command has sent -/

/-- From `s` to `t`, `TRACE` has gained at most one entry for each of the frames `fs`, every entry
of one of them and to `a`. -/
def Sends (a : Byte) (fs : List BusFrame) (s t : State) : Prop :=
  ∃ new, t.trace = s.trace ++ new ∧ new.length ≤ fs.length ∧
    ∀ e ∈ new, e.target = a ∧ ∃ f ∈ fs, e.bytes = frameBytes s.cfg.wire f

/-- A command gave a response and sent at most the frames `fs`, or a reset abandoned it and it gave
none. -/
def SendsIfCompleted (a : Byte) (fs : List BusFrame) (s t : State) : Prop :=
  Sends a fs s t ∨ t.responses = s.responses

theorem Sends.afterSent (a : Byte) (fs : List BusFrame) (s : State) :
    Sends a fs s (s.afterSent a fs) := by
  refine ⟨sentOk s.cfg.wire a fs, rfl, by simp [sentOk], fun e he => ?_⟩
  obtain ⟨f, hf, rfl⟩ := List.mem_map.mp he
  exact ⟨rfl, f, hf, rfl⟩

/-- After the frames `fs1`, all answered, the frame `f` as well. -/
theorem Sends.afterSent_record (a : Byte) (fs1 : List BusFrame) (f : BusFrame) (fs2 : List BusFrame)
    (o : BusOutcome) (s : State) :
    Sends a (fs1 ++ f :: fs2) s ((s.afterSent a fs1).dropEvent.record a f o) := by
  refine ⟨sentOk s.cfg.wire a fs1 ++ [⟨a, frameBytes s.cfg.wire f, o⟩], by simp, by simp [sentOk],
    fun e he => ?_⟩
  rcases List.mem_append.mp he with he | he
  · obtain ⟨g, hg, rfl⟩ := List.mem_map.mp he
    exact ⟨rfl, g, List.mem_append_left _ hg, rfl⟩
  · obtain rfl := List.mem_singleton.mp he
    exact ⟨rfl, f, by simp, rfl⟩

/-- A sequence of transactions that the transport ends has sent at most its frames, and one that a
reset ends has given no response. -/
theorem afterBus_sends {a : Byte} {fs : List BusFrame} {s : State} {onOk onFail : State → Outcome}
    (hok : ∀ t, Sends a fs s t → NextAll (Sends a fs s) (onOk t))
    (hfail : ∀ t, Sends a fs s t → NextAll (Sends a fs s) (onFail t)) :
    NextAll (SendsIfCompleted a fs s) (afterBus (sendAll a fs s) onOk onFail) := by
  obtain ⟨-, hend⟩ | ⟨fs1, f, fs2, rfl, -, ⟨-, hend⟩ | ⟨-, hend⟩ | ⟨-, hend⟩ | ⟨-, hend⟩⟩ :=
    sendAll_cases a fs s <;> rw [hend]
  · exact (hok _ (Sends.afterSent a fs s)).mono fun _ => .inl
  · exact (hfail _ (Sends.afterSent_record a fs1 f fs2 .fail s)).mono fun _ => .inl
  · trivial
  · exact .inr rfl
  · exact .inr rfl

/-- The rules of bus traffic for one command, from `s` to the state `t` in which it completed. -/
def TrafficLawful (i : Instr) (s t : State) : Prop :=
  ∃ new, t.trace = s.trace ++ new ∧ new.length ≤ maxTransactions i s ∧
    ∀ e ∈ new,
      (∀ h, s.life = .ready h → e.target = h.address) ∧
      (∀ w h a v, i = .init w h a v → e.target = a) ∧
      (e.bytes.head? = some s.cfg.wire.ctrlCmd ∨
        (i = .showBuf ∧ e.bytes.head? = some s.cfg.wire.ctrlData))

theorem TrafficLawful.of_trace_eq {i : Instr} {s t : State} (h : t.trace = s.trace) :
    TrafficLawful i s t :=
  ⟨[], by simpa using h, Nat.zero_le _, nofun⟩

/-- Each frame begins with a control byte, the data byte for data frames alone (R93, R95). -/
theorem frameBytes_head? (w : Wire) (f : BusFrame) :
    (frameBytes w f).head? = some w.ctrlCmd ∨
      (frameBytes w f).head? = some w.ctrlData ∧ ∃ p, f = .data p := by
  cases f with
  | command c => exact .inl rfl
  | data p => exact .inr ⟨rfl, p, rfl⟩

theorem TrafficLawful.of_sends {i : Instr} {a : Byte} {fs : List BusFrame} {s t : State}
    (hsends : Sends a fs s t) (hcount : fs.length ≤ maxTransactions i s)
    (haddr : ∀ h, s.life = .ready h → a = h.address)
    (hinit : ∀ w h b v, i = .init w h b v → a = b)
    (hdata : ∀ p, .data p ∈ fs → i = .showBuf) : TrafficLawful i s t := by
  obtain ⟨new, htrace, hlen, hnew⟩ := hsends
  refine ⟨new, htrace, hlen.trans hcount, fun e he => ?_⟩
  obtain ⟨rfl, f, hf, hbytes⟩ := hnew e he
  refine ⟨haddr, hinit, ?_⟩
  rw [hbytes]
  rcases frameBytes_head? s.cfg.wire f with hhead | ⟨hhead, p, rfl⟩
  · exact .inl hhead
  · exact .inr ⟨hdata p hf, hhead⟩

/-- The command's traffic is lawful, or a reset abandoned it and it has given no response. -/
def LawfulIfCompleted (i : Instr) (s t : State) : Prop :=
  TrafficLawful i s t ∨ t.responses = s.responses

/-- A command that sends nothing. -/
theorem complete_lawful {i : Instr} {s t : State} (r : Result) (h : t.trace = s.trace) :
    NextAll (LawfulIfCompleted i s) (complete r t) :=
  nextAll_complete (.inl (.of_trace_eq h))

theorem whenReady_lawful {i : Instr} {s : State} {body : Handle → Outcome}
    (hready : ∀ h, s.life = .ready h → NextAll (LawfulIfCompleted i s) (body h)) :
    NextAll (LawfulIfCompleted i s) (whenReady s body) :=
  nextAll_whenReady_of_life (complete_lawful _ rfl) hready

theorem complete_sends {a : Byte} {fs : List BusFrame} {s t : State} (r : Result)
    (h : Sends a fs s t) : NextAll (Sends a fs s) (complete r t) := h

/-- In `READY`, a command other than INIT that sends its frames to the handle's address. -/
theorem LawfulIfCompleted.of_sendsIfCompleted {i : Instr} {fs : List BusFrame} {s t : State}
    {h : Handle} (hlife : s.life = .ready h) (hsends : SendsIfCompleted h.address fs s t)
    (hcount : fs.length ≤ maxTransactions i s) (hinit : ∀ w h b v, i ≠ .init w h b v)
    (hdata : ∀ p, .data p ∈ fs → i = .showBuf) : LawfulIfCompleted i s t :=
  hsends.imp_left fun hs => .of_sends hs hcount
    (fun h' hlife' => by
      obtain rfl : h = h' := Lifecycle.ready.inj (hlife.symm.trans hlife')
      rfl)
    (fun w h b v hi => absurd hi (hinit w h b v)) hdata

theorem cosmetic_lawful {i : Instr} (c : PanelCmd) (s : State) (hcount : 1 ≤ maxTransactions i s)
    (hinit : ∀ w h b v, i ≠ .init w h b v) : NextAll (LawfulIfCompleted i s) (cosmetic c s) := by
  refine whenReady_lawful fun h hlife => ?_
  rw [busWrite_eq_sendAll]
  exact (afterBus_sends (fun _ ht => complete_sends _ ht) (fun _ ht => complete_sends _ ht)).mono
    fun _ ht => .of_sendsIfCompleted hlife ht hcount hinit (by simp)

theorem execDeinit_lawful (s : State) : NextAll (LawfulIfCompleted .deinit s) (execDeinit s) := by
  refine whenReady_lawful fun h hlife => ?_
  rw [busWrite_eq_sendAll]
  refine NextAll.mono (afterBus_sends ?_ ?_) fun _ ht =>
    .of_sendsIfCompleted hlife ht le_rfl nofun (by simp)
  · exact fun t ht => complete_sends (t := t.release) _ ht
  · exact fun t ht => complete_sends (t := t.release) _ ht

theorem execShow_lawful (s : State) : NextAll (LawfulIfCompleted .showBuf s) (execShow s) := by
  refine whenReady_lawful fun h hlife => ?_
  refine (afterBus_sends (fun _ ht => complete_sends _ ht) (fun _ ht => complete_sends _ ht)).mono
    fun _ ht => .of_sendsIfCompleted hlife ht ?_ nofun (fun _ _ => rfl)
  rw [showFrames_length, maxTransactions, hlife]

theorem initFrames_no_data {wire : Wire} {w h : Byte} {evcc : Bool} {p : List Byte} :
    .data p ∉ initFrames wire w h evcc := by
  simp [initFrames]

/-- INIT sends to its operand, and only where there is no handle. -/
theorem execInit_lawful (w h a : Byte) (evcc : Bool) (s : State) :
    NextAll (LawfulIfCompleted (.init w h a evcc) s) (execInit w h a evcc s) := by
  unfold execInit
  split
  next => exact complete_lawful _ rfl
  next hlife =>
    split_ifs
    · exact complete_lawful _ rfl
    · exact complete_lawful _ rfl
    · refine NextAll.mono (afterBus_sends ?_ fun _ ht => complete_sends _ ht)
        fun _ ht => ht.imp_left fun hs => .of_sends hs le_rfl ?_ ?_ ?_
      · exact fun t ht =>
          complete_sends (t := t.forgetPicture.withHandle (freshHandle w h a evcc)) _ ht
      · intro h' hready
        exact nomatch hlife.symm.trans hready
      · rintro _ _ _ _ ⟨⟩
        rfl
      · exact fun p hp => absurd hp initFrames_no_data

theorem execGetPixel_lawful (x y : Coord) (s : State) :
    NextAll (LawfulIfCompleted (.getPixel x y) s) (execGetPixel x y s) := by
  unfold execGetPixel
  split
  · exact .inl (.of_trace_eq rfl)
  · exact .inl (.of_trace_eq rfl)

theorem execSetFont_lawful (id : Byte) (s : State) :
    NextAll (LawfulIfCompleted (.setFont id) s) (execSetFont id s) := by
  unfold execSetFont
  split_ifs
  · exact whenReady_lawful fun _ _ => complete_lawful _ rfl
  · exact complete_lawful _ rfl

theorem exec_lawful (i : Instr) (s : State) : NextAll (LawfulIfCompleted i s) (exec i s) := by
  cases i with
  | setPixel | clear | drawChar | drawString =>
    exact whenReady_lawful fun _ _ => complete_lawful _ rfl
  | getPixel x y => exact execGetPixel_lawful x y s
  | init w h a e => exact execInit_lawful w h a e s
  | deinit => exact execDeinit_lawful s
  | powerOn | powerOff | contrast | invert => exact cosmetic_lawful _ s le_rfl nofun
  | showBuf => exact execShow_lawful s
  | setFont id => exact execSetFont_lawful id s

/-- A completed command has given a response more. -/
theorem State.completedAs.responses_ne {s t : State} {r : Result} (h : s.completedAs t r) :
    t.responses ≠ s.responses := by
  obtain ⟨v, hv⟩ := h
  simp [hv]

end Sys2Proof.Machine

/-- Settles O57: a bus sequence sends at most its frames, all to one target, and each command's
sequence is the one R245 counts; a command that a reset abandons gives no response. -/
theorem busTrafficRules : Obligations.BusTrafficRules := by
  intro i s t r hexec hcompleted
  have hlawful := Sys2Proof.Machine.exec_lawful i s
  rw [hexec] at hlawful
  exact hlawful.resolve_right (Sys2Proof.Machine.State.completedAs.responses_ne hcompleted)

namespace Sys2Proof.Machine

/-! ### Two runs that differ in `TRACE` and the panel alone

Every operation of the block, done to both of two states that are in step, leaves them in step or
ends both runs alike. -/

/-- The two states agree on everything but `TRACE` and the panel. -/
structure SameBlock (t t' : State) : Prop where
  cfg : t'.cfg = t.cfg
  life : t'.life = t.life
  responses : t'.responses = t.responses
  inputs : t'.inputs = t.inputs
  events : t'.events = t.events
  busIndex : t'.busIndex = t.busIndex

/-- Two runs begun with the traces `tr` and `tr'` have come to `t` and `t'`: the same block, and the
same entries added. -/
structure InStep (tr tr' : List Transaction) (t t' : State) : Prop extends SameBlock t t' where
  trace : ∃ new, t.trace = tr ++ new ∧ t'.trace = tr' ++ new

/-- Two runs that a reset abandoned: the same block, and no trace. -/
structure BothReset (t t' : State) : Prop extends SameBlock t t' where
  empty : t.trace = []
  empty' : t'.trace = []

/-- Two sequences of transactions that end the same way. -/
inductive BusEnd.Alike (tr tr' : List Transaction) : BusEnd → BusEnd → Prop
  | ok {t t' : State} (h : InStep tr tr' t t') : Alike tr tr' (.ok t) (.ok t')
  | fail {t t' : State} (h : InStep tr tr' t t') : Alike tr tr' (.fail t) (.fail t')
  | reset {t t' : State} (h : BothReset t t') : Alike tr tr' (.reset t) (.reset t')
  | stuck : Alike tr tr' .stuck .stuck

/-- Two commands that end the same way. -/
inductive OutcomesAlike (tr tr' : List Transaction) : Outcome → Outcome → Prop
  | completed {t t' : State} (h : InStep tr tr' t t') : OutcomesAlike tr tr' (.next t) (.next t')
  | abandoned {t t' : State} (h : BothReset t t') : OutcomesAlike tr tr' (.next t) (.next t')
  | fault (f : Fault) : OutcomesAlike tr tr' (.fault f) (.fault f)

section
variable {tr tr' : List Transaction} {t t' : State}

theorem InStep.respond (h : InStep tr tr' t t') (r : Response) :
    InStep tr tr' (t.respond r) (t'.respond r) :=
  { h with responses := congrArg (· ++ [r]) h.responses }

theorem InStep.withHandle (h : InStep tr tr' t t') (hd : Handle) :
    InStep tr tr' (t.withHandle hd) (t'.withHandle hd) :=
  { h with life := rfl }

theorem InStep.release (h : InStep tr tr' t t') : InStep tr tr' t.release t'.release :=
  { h with life := rfl }

theorem InStep.forgetPicture (h : InStep tr tr' t t') :
    InStep tr tr' t.forgetPicture t'.forgetPicture :=
  { h with }

theorem InStep.dropEvent (h : InStep tr tr' t t') : InStep tr tr' t.dropEvent t'.dropEvent :=
  { h with
    events := congrArg List.tail h.events
    busIndex := congrArg (· + 1) h.busIndex }

theorem InStep.record (h : InStep tr tr' t t') (a : Byte) (f : BusFrame) (o : BusOutcome) :
    InStep tr tr' (t.record a f o) (t'.record a f o) := by
  obtain ⟨new, hnew, hnew'⟩ := h.trace
  exact { h with
    trace := ⟨new ++ [⟨a, frameBytes t.cfg.wire f, o⟩], by simp [hnew], by simp [hnew', h.cfg]⟩ }

theorem InStep.hardReset (h : InStep tr tr' t t') : BothReset t.hardReset t'.hardReset :=
  { h with life := rfl, empty := rfl, empty' := rfl }

theorem InStep.cutReset (h : InStep tr tr' t t') : BothReset t.cutReset t'.cutReset :=
  { h with life := rfl, empty := rfl, empty' := rfl }

/-- What the transport does does not depend on `TRACE` or the panel. -/
theorem InStep.nextEvent (h : InStep tr tr' t t') : t'.nextEvent = t.nextEvent := by
  rw [State.nextEvent, State.nextEvent, h.events, h.busIndex]

theorem InStep.sendAll (a : Byte) (fs : List BusFrame) (h : InStep tr tr' t t') :
    BusEnd.Alike tr tr' (sendAll a fs t) (sendAll a fs t') := by
  induction fs generalizing t t' with
  | nil => exact .ok h
  | cons f fs ih =>
    simp only [Machine.sendAll, busWrite, h.nextEvent]
    cases t.nextEvent with
    | ok => exact ih (h.dropEvent.record a f .ok)
    | fail => exact .fail (h.dropEvent.record a f .fail)
    | hang => exact .stuck
    | resetBefore => exact .reset h.dropEvent.hardReset
    | resetDuring => exact .reset h.dropEvent.cutReset

theorem InStep.busWrite (a : Byte) (f : BusFrame) (h : InStep tr tr' t t') :
    BusEnd.Alike tr tr' (busWrite a f t) (busWrite a f t') := by
  rw [busWrite_eq_sendAll, busWrite_eq_sendAll]
  exact h.sendAll a [f]

theorem BusEnd.Alike.afterBus {e e' : BusEnd} (he : e.Alike tr tr' e')
    {onOk onOk' onFail onFail' : State → Outcome}
    (hok : ∀ t t', InStep tr tr' t t' → OutcomesAlike tr tr' (onOk t) (onOk' t'))
    (hfail : ∀ t t', InStep tr tr' t t' → OutcomesAlike tr tr' (onFail t) (onFail' t')) :
    OutcomesAlike tr tr' (afterBus e onOk onFail) (afterBus e' onOk' onFail') := by
  cases he with
  | ok h => exact hok _ _ h
  | fail h => exact hfail _ _ h
  | reset h => exact .abandoned h
  | stuck => exact .fault _

theorem InStep.complete (h : InStep tr tr' t t') (r : Result) :
    OutcomesAlike tr tr' (complete r t) (complete r t') :=
  .completed (h.respond _)

theorem InStep.whenReady (h : InStep tr tr' t t') {body body' : Handle → Outcome}
    (hbody : ∀ hd, OutcomesAlike tr tr' (body hd) (body' hd)) :
    OutcomesAlike tr tr' (whenReady t body) (whenReady t' body') := by
  unfold Machine.whenReady
  rw [h.life]
  cases t.life with
  | uninit => exact h.complete _
  | ready hd => exact hbody hd

/-- A command whose new handle is computed from the old one and the parameters. -/
theorem InStep.updateHandle (h : InStep tr tr' t t') (g : Config → Handle → Handle) :
    OutcomesAlike tr tr'
      (Machine.whenReady t fun hd => Machine.complete .ok (t.withHandle (g t.cfg hd)))
      (Machine.whenReady t' fun hd => Machine.complete .ok (t'.withHandle (g t'.cfg hd))) := by
  rw [h.cfg]
  exact h.whenReady fun hd => (h.withHandle _).complete _

theorem InStep.completeCosmetic (h : InStep tr tr' t t') :
    OutcomesAlike tr tr' (Machine.complete (cosmeticResult t.cfg) t)
      (Machine.complete (cosmeticResult t'.cfg) t') := by
  rw [h.cfg]
  exact h.complete _

theorem InStep.cosmetic (h : InStep tr tr' t t') (c : PanelCmd) :
    OutcomesAlike tr tr' (cosmetic c t) (cosmetic c t') :=
  h.whenReady fun hd => (h.busWrite hd.address _).afterBus
    (fun _ _ hu => hu.complete _) (fun _ _ hu => hu.completeCosmetic)

theorem InStep.execDeinit (h : InStep tr tr' t t') :
    OutcomesAlike tr tr' (execDeinit t) (execDeinit t') :=
  h.whenReady fun hd => (h.busWrite hd.address _).afterBus
    (fun _ _ hu => hu.release.complete _) (fun _ _ hu => hu.release.completeCosmetic)

theorem InStep.execShow (h : InStep tr tr' t t') :
    OutcomesAlike tr tr' (execShow t) (execShow t') :=
  h.whenReady fun hd => (h.sendAll hd.address _).afterBus
    (fun _ _ hu => hu.complete _) (fun _ _ hu => hu.complete _)

theorem InStep.execGetPixel (h : InStep tr tr' t t') (x y : Coord) :
    OutcomesAlike tr tr' (execGetPixel x y t) (execGetPixel x y t') := by
  unfold Machine.execGetPixel
  rw [h.life]
  cases t.life with
  | uninit | ready => exact .completed (h.respond _)

theorem InStep.execInit (h : InStep tr tr' t t') (w ht a : Byte) (evcc : Bool) :
    OutcomesAlike tr tr' (execInit w ht a evcc t) (execInit w ht a evcc t') := by
  unfold Machine.execInit
  rw [h.life, h.cfg]
  cases t.life with
  | ready => exact h.complete _
  | uninit =>
    dsimp only
    split_ifs
    · exact h.complete _
    · exact h.complete _
    · exact (h.sendAll a _).afterBus
        (fun _ _ hu => (hu.forgetPicture.withHandle _).complete _) (fun _ _ hu => hu.complete _)

theorem InStep.execSetFont (h : InStep tr tr' t t') (id : Byte) :
    OutcomesAlike tr tr' (execSetFont id t) (execSetFont id t') := by
  unfold Machine.execSetFont
  rw [h.cfg]
  split_ifs
  · exact h.updateHandle fun _ hd => { hd with fontSel := id }
  · exact h.complete _

theorem InStep.exec (h : InStep tr tr' t t') (i : Instr) :
    OutcomesAlike tr tr' (exec i t) (exec i t') := by
  cases i with
  | setPixel x y on => exact h.updateHandle fun _ hd => hd.setPixel (coordVal x) (coordVal y) on
  | getPixel x y => exact h.execGetPixel x y
  | clear => exact h.updateHandle fun _ hd => { hd with buf := zeroBytes hd.buf hd.size }
  | init w ht a evcc => exact h.execInit w ht a evcc
  | deinit => exact h.execDeinit
  | powerOn | powerOff | contrast | invert => exact h.cosmetic _
  | showBuf => exact h.execShow
  | drawChar x y sc c =>
    exact h.updateHandle fun cfg => paintChar cfg (coordVal x) (coordVal y) (byteVal sc) c
  | drawString x y sc str =>
    exact h.updateHandle fun cfg => paintString cfg (coordVal x) (coordVal y) (byteVal sc) 0 str
  | setFont id => exact h.execSetFont id

end

/-- Two states that differ in `TRACE` and the panel alone are in step before any command. -/
theorem InStep.start (s : State) (tr : List Transaction) (pn : Panel) :
    InStep s.trace tr s { s with trace := tr, panel := pn } :=
  { cfg := rfl, life := rfl, responses := rfl, inputs := rfl, events := rfl, busIndex := rfl
    trace := ⟨[], by simp, by simp⟩ }

end Sys2Proof.Machine

/-- Settles O56: every operation keeps two runs that differ in `TRACE` and the panel in step, until
they complete, are stuck or are reset together. -/
theorem traceAndPanelNeverRead : Obligations.TraceAndPanelNeverRead := by
  intro i s tr pn
  have halike := (Sys2Proof.Machine.InStep.start s tr pn).exec i
  generalize Sys2Proof.Machine.exec i s = o at halike ⊢
  generalize Sys2Proof.Machine.exec i { s with trace := tr, panel := pn } = o' at halike ⊢
  cases halike with
  | completed h =>
    exact ⟨_, rfl, h.life, h.responses, h.cfg, h.inputs, h.events, h.busIndex, .inr h.trace⟩
  | abandoned h =>
    exact ⟨_, rfl, h.life, h.responses, h.cfg, h.inputs, h.events, h.busIndex,
      .inl ⟨h.empty, h.empty'⟩⟩
  | fault f => rfl

namespace Sys2Proof.Machine

/-! ### The panel under the frames of SHOW -/

/-- The data frame of page `p` (R95). -/
def dataFrame (h : Handle) (p : Nat) : BusFrame :=
  .data (memRead h.buf (p * byteVal h.width) (byteVal h.width))

/-- The window that the address frame of page `p` sets (R98): all columns of the page. -/
def pageWindow (h : Handle) (p : Nat) : Window := ⟨0, byteVal h.width - 1, p, p⟩

/-- The panel with its window on page `p` and its cursor at the page's first column (R219 a). -/
def Panel.addressed (d : Panel) (h : Handle) (p : Nat) : Panel :=
  { d with window := some (pageWindow h p), cursor := some (p, 0) }

/-- The panel at the handle's target after the frames `fs`, all answered `ok`. -/
def panelAfter (wire : Wire) (h : Handle) (fs : List BusFrame) (d : Panel) : Panel :=
  fs.foldl (fun d f => (d.at h.address).accept wire f) d

@[simp] theorem Panel.addressed_target (d : Panel) (h : Handle) (p : Nat) :
    (d.addressed h p).target = d.target := rfl

theorem Panel.addressed_at (d : Panel) (h : Handle) (p : Nat) :
    ((d.at h.address).addressed h p).at h.address = (d.at h.address).addressed h p :=
  Panel.at_same (d.at_target h.address)

theorem framesBefore_succ (h : Handle) (p : Nat) :
    framesBefore h (p + 1) = framesBefore h p ++ [addrFrame h.width p, dataFrame h p] := by
  simp [framesBefore, List.range_succ, pageFrames, dataFrame]

/-- The frames of SHOW, split at page `p`. -/
theorem showFrames_split (h : Handle) {p : Nat} (hp : p < h.pages.toNat) :
    ∃ rest, showFrames h = framesBefore h p ++ addrFrame h.width p :: dataFrame h p :: rest := by
  obtain ⟨n, hn⟩ := Nat.exists_eq_add_of_lt hp
  refine ⟨((List.range n).map (p + 1 + ·)).flatMap (pageFrames h), ?_⟩
  rw [showFrames, hn, show p + n + 1 = p + 1 + n by omega, List.range_add, List.flatMap_append]
  change framesBefore h (p + 1) ++ _ = _
  rw [framesBefore_succ]
  simp

theorem pageWindow_covers (h : Handle) (p q : Nat) {x : Nat} (hw : 1 ≤ byteVal h.width)
    (hx : x < 256) :
    (pageWindow h p).covers (devKey q x) = true ↔ q = p ∧ x < byteVal h.width := by
  have hpage : (q * 256 + x) / 256 = q := by omega
  have hcol : (q * 256 + x) % 256 = x := by omega
  simp only [Window.covers, pageWindow, devKey, hpage, hcol, Bool.and_eq_true, decide_eq_true_eq]
  omega

/-- The operands of an address frame, as the sink reads them. -/
theorem addrFrame_window (h : Handle) {p : Nat} (hw : 1 ≤ byteVal h.width) (hp : p < 256) :
    (⟨byteVal 0x00, byteVal (h.width - 1), byteVal (BitVec.ofNat 8 p), byteVal (BitVec.ofNat 8 p)⟩
      : Window) = pageWindow h p := by
  have hcol : byteVal (h.width - 1) = byteVal h.width - 1 := by
    have := h.width.isLt
    simp only [byteVal] at hw ⊢
    bv_omega
  have hpage : byteVal (BitVec.ofNat 8 p) = p := by simp [byteVal, Nat.mod_eq_of_lt hp]
  rw [hcol, hpage]
  rfl

/-- R219 (a): an address frame sets the window of its page and the cursor to its first column. -/
theorem Panel.accept_addrFrame (wire : Wire) (d : Panel) (h : Handle) {p : Nat}
    (hw : 1 ≤ byteVal h.width) (hp : p < 256) :
    d.accept wire (addrFrame h.width p) = d.addressed h p := by
  rw [Panel.addressed, ← addrFrame_window h hw hp]
  simp [addrFrame, Panel.accept, Panel.acceptCmd, byteVal, Nat.mod_eq_of_lt hp]

/-- U3, R219 (c): a failed address frame loses the window it would have set. -/
theorem Panel.lose_addrFrame (d : Panel) (h : Handle) {p : Nat} (hw : 1 ≤ byteVal h.width)
    (hp : p < 256) : d.lose (addrFrame h.width p) = d.keepOutside (some (pageWindow h p)) := by
  rw [← addrFrame_window h hw hp]
  rfl

/-- A failed data frame behind its page's address frame loses the same window. -/
theorem Panel.lose_dataFrame (d : Panel) (h : Handle) (p : Nat) :
    (d.addressed h p).lose (dataFrame h p) = d.keepOutside (some (pageWindow h p)) := rfl

/-- R219 (b): a data frame behind its page's address frame puts the page's bytes in its place. -/
theorem Panel.accept_dataFrame_devByte (wire : Wire) (d : Panel) (h : Handle) {p : Nat}
    (hw : 1 ≤ byteVal h.width) (q : Nat) {x : Nat} (hx : x < 256) :
    ((d.addressed h p).accept wire (dataFrame h p)).devByte q x =
      if q = p ∧ x < byteVal h.width then some (h.buf.read (p * byteVal h.width + x))
      else d.devByte q x := by
  have hfits : 0 + (memRead h.buf (p * byteVal h.width) (byteVal h.width)).length
      ≤ (pageWindow h p).colEnd + 1 := by
    simp only [memRead_length, pageWindow]
    omega
  simp only [dataFrame, Panel.accept, Panel.acceptData, Panel.addressed]
  rw [if_pos hfits]
  simp only [Panel.devByte, Cells.get_putAll, memRead_length, memRead_getElem, devKey]
  by_cases hin : q = p ∧ x < byteVal h.width
  · obtain ⟨rfl, hxw⟩ := hin
    rw [dif_pos (by omega), if_pos ⟨rfl, hxw⟩]
    congr 3
    omega
  · have hw256 : byteVal h.width < 256 := h.width.isLt
    rw [dif_neg (by omega), if_neg hin]

theorem panelAfter_append (wire : Wire) (h : Handle) (fs gs : List BusFrame) (d : Panel) :
    panelAfter wire h (fs ++ gs) d = panelAfter wire h gs (panelAfter wire h fs d) :=
  List.foldl_append

theorem panelAfter_addrFrame (wire : Wire) (h : Handle) (d : Panel) {p : Nat}
    (hw : 1 ≤ byteVal h.width) (hp : p < 256) :
    panelAfter wire h [addrFrame h.width p] d = (d.at h.address).addressed h p :=
  Panel.accept_addrFrame wire (d.at h.address) h hw hp

/-- The two frames of a page, both answered `ok`, put the page's bytes in their place and leave the
other bytes of the target's panel. -/
theorem panelAfter_page_devByte (wire : Wire) (h : Handle) (d : Panel) {p : Nat}
    (hw : 1 ≤ byteVal h.width) (hp : p < 256) (q : Nat) {x : Nat} (hx : x < 256) :
    ((panelAfter wire h [addrFrame h.width p, dataFrame h p] d).at h.address).devByte q x =
      if q = p ∧ x < byteVal h.width then some (h.buf.read (p * byteVal h.width + x))
      else (d.at h.address).devByte q x := by
  have hframes : panelAfter wire h [addrFrame h.width p, dataFrame h p] d =
      ((panelAfter wire h [addrFrame h.width p] d).at h.address).accept wire (dataFrame h p) := rfl
  rw [hframes, panelAfter_addrFrame wire h d hw hp, Panel.addressed_at,
    Panel.at_same (by rw [Panel.accept_target, Panel.addressed_target, Panel.at_target]),
    Panel.accept_dataFrame_devByte wire _ h hw q hx]

/-- After the pages before page `p` the panel holds their bytes, and its others are as before. -/
theorem panelAfter_framesBefore_devByte (wire : Wire) (h : Handle) (d : Panel) {p : Nat}
    (hw : 1 ≤ byteVal h.width) (hp : p ≤ 256) (q : Nat) {x : Nat} (hx : x < 256) :
    ((panelAfter wire h (framesBefore h p) d).at h.address).devByte q x =
      if q < p ∧ x < byteVal h.width then some (h.buf.read (q * byteVal h.width + x))
      else (d.at h.address).devByte q x := by
  induction p with
  | zero =>
    rw [if_neg (by omega)]
    rfl
  | succ p ih =>
    rw [framesBefore_succ, panelAfter_append, panelAfter_page_devByte wire h _ hw (by omega) q hx,
      ih (by omega)]
    by_cases hqp : q = p
    · subst hqp
      by_cases hxw : x < byteVal h.width <;> simp [hxw]
    · have hlt : q < p + 1 ↔ q < p := by omega
      simp [hqp, hlt]

/-- The bytes known after the pages before page `p` and a failed frame of page `p`. -/
theorem failedPage_devByte (wire : Wire) {h : Handle} (d : Panel) {p : Nat}
    (hw : 1 ≤ byteVal h.width) (hp : p < h.pages.toNat) (q : Nat) {x : Nat} (hx : x < 256) :
    (((panelAfter wire h (framesBefore h p) d).at h.address).keepOutside
        (some (pageWindow h p))).devByte q x =
      if q = p ∧ x < byteVal h.width then none
      else if q < p ∧ x < byteVal h.width then some (h.buf.read (q * byteVal h.width + x))
      else (d.at h.address).devByte q x := by
  have hp256 : p ≤ 256 := by
    have := h.pages.isLt
    omega
  rw [Panel.keepOutside_devByte, panelAfter_framesBefore_devByte wire h d hw hp256 q hx]
  simp only [pageWindow_covers h p q hw hx]

/-! ### A failed SHOW -/

/-- A SHOW whose transaction behind the frames `fs1` fails. -/
theorem execShow_of_fail {s : State} {h : Handle} {fs1 fs2 : List BusFrame} {f : BusFrame}
    (hlife : s.life = .ready h) (hfs : showFrames h = fs1 ++ f :: fs2)
    (hok : ∀ j < fs1.length, s.eventAt j = .ok) (hfail : s.eventAt fs1.length = .fail) :
    ∃ t, exec .showBuf s = .next t ∧ s.completedAs t .ioFail ∧
      t.panel = ((panelAfter s.cfg.wire h fs1 s.panel).at h.address).lose f := by
  have hsend : sendAll h.address (showFrames h) s =
      .fail ((s.afterSent h.address fs1).dropEvent.record h.address f .fail) := by
    rw [hfs, sendAll_at _ _ _ _ _ hok, hfail]
  refine ⟨((s.afterSent h.address fs1).dropEvent.record h.address f .fail).respond ⟨.ioFail, none⟩,
    ?_, ⟨none, rfl⟩, rfl⟩
  rw [exec, execShow, whenReady_of_ready hlife, hsend]
  rfl

/-- Whichever frame of page `p` fails, the panel keeps what it held before the page, outside the
page's window. -/
theorem execShow_of_fail_in_page {s : State} {h : Handle} {k p : Nat} (hw : 1 ≤ byteVal h.width)
    (hlife : s.life = .ready h) (hp : p < h.pages.toNat) (hk : k = 2 * p ∨ k = 2 * p + 1)
    (hok : ∀ j < k, s.eventAt j = .ok) (hfail : s.eventAt k = .fail) :
    ∃ t, exec .showBuf s = .next t ∧ s.completedAs t .ioFail ∧
      t.panel = ((panelAfter s.cfg.wire h (framesBefore h p) s.panel).at h.address).keepOutside
        (some (pageWindow h p)) := by
  have hp256 : p < 256 := by
    have := h.pages.isLt
    omega
  obtain ⟨rest, hsplit⟩ := showFrames_split h hp
  rcases hk with rfl | rfl
  · obtain ⟨t, hexec, hdone, hpanel⟩ := execShow_of_fail hlife hsplit
      (by rwa [framesBefore_length]) (by rwa [framesBefore_length])
    exact ⟨t, hexec, hdone, hpanel.trans (Panel.lose_addrFrame _ h hw hp256)⟩
  · have hlen : (framesBefore h p ++ [addrFrame h.width p]).length = 2 * p + 1 := by
      rw [List.length_append, framesBefore_length, List.length_singleton]
    obtain ⟨t, hexec, hdone, hpanel⟩ := execShow_of_fail hlife
      (hsplit.trans (List.append_cons _ _ _)) (by rwa [hlen]) (by rwa [hlen])
    refine ⟨t, hexec, hdone, hpanel.trans ?_⟩
    rw [panelAfter_append, panelAfter_addrFrame _ h _ hw hp256, Panel.addressed_at,
      Panel.lose_dataFrame]

end Sys2Proof.Machine

/-- Settles O39: before page `k / 2` the panel holds the pages sent, and the failing frame,
whichever of the page's two it is, loses the page's window alone. -/
theorem panelAfterFailedShow : Obligations.PanelAfterFailedShow := by
  intro s h k hinv hlife hk hok hfail
  obtain ⟨hw, -⟩ := Sys2Proof.Machine.State.inv_handle hinv hlife
  have hp : k / 2 < h.pages.toNat := by omega
  obtain ⟨t, hexec, hdone, hpanel⟩ :=
    Sys2Proof.Machine.execShow_of_fail_in_page hw hlife hp (by omega) hok hfail
  have hwidth : h.width.toNat < 256 := h.width.isLt
  have hbyte : ∀ q x, x < 256 → t.panel.devByte q x =
      if q = k / 2 ∧ x < h.width.toNat then none
      else if q < k / 2 ∧ x < h.width.toNat then some (h.buf.read (q * h.width.toNat + x))
      else (s.panel.at h.address).devByte q x := fun q x hx =>
    hpanel ▸ Sys2Proof.Machine.failedPage_devByte s.cfg.wire s.panel hw hp q hx
  refine ⟨t, hexec, hdone, fun p hpk x hx => ?_, fun x hx => ?_, fun p x hx hout htarget => ?_, ?_⟩
  · rw [hbyte p x (by omega), if_neg (by omega), if_pos ⟨hpk, hx⟩]
  · rw [hbyte _ x (by omega), if_pos ⟨rfl, hx⟩]
  · rw [hbyte p x hx, if_neg (by omega), if_neg (by omega),
      Sys2Proof.Machine.Panel.at_same htarget]
  · rw [hpanel]
    rfl

namespace Sys2Proof.Machine

/-! ### Where a command stops -/

/-- The outcome is a next state, or it is stuck (U10) because one of the next `n` transactions from
`s` is never answered. -/
def StopsOnlyAtHang (n : Nat) (s : State) : Outcome → Prop
  | .next _ => True
  | .fault f => f = .busNeverAnswers ∧ ∃ k < n, s.eventAt k = .hang
  | .refused _ => False

theorem StopsOnlyAtHang.next_of_answered {n : Nat} {s : State} {o : Outcome}
    (h : StopsOnlyAtHang n s o) (hans : ∀ k < n, s.eventAt k ≠ .hang) : ∃ t, o = .next t := by
  cases o with
  | next t => exact ⟨t, rfl⟩
  | fault f =>
    obtain ⟨-, k, hk, hhang⟩ := h
    exact absurd hhang (hans k hk)
  | refused r => exact h.elim

theorem StopsOnlyAtHang.ne_refused {n : Nat} {s : State} {o : Outcome} (h : StopsOnlyAtHang n s o)
    (r : Refusal) : o ≠ .refused r := by
  rintro rfl
  exact h

theorem StopsOnlyAtHang.of_fault {n : Nat} {s : State} {o : Outcome} {f : Fault}
    (h : StopsOnlyAtHang n s o) (ho : o = .fault f) :
    f = .busNeverAnswers ∧ ∃ k < n, s.eventAt k = .hang := by
  rwa [ho] at h

theorem complete_stopsOnlyAtHang {n : Nat} {s : State} (r : Result) (t : State) :
    StopsOnlyAtHang n s (complete r t) := trivial

theorem whenReady_stopsOnlyAtHang {n : Nat} {s : State} {body : Handle → Outcome}
    (hready : ∀ h, s.life = .ready h → StopsOnlyAtHang n s (body h)) :
    StopsOnlyAtHang n s (whenReady s body) := by
  unfold whenReady
  split
  next => exact complete_stopsOnlyAtHang _ s
  next h hlife => exact hready h hlife

/-- A sequence of transactions is stuck only at one of its own frames. -/
theorem afterBus_stopsOnlyAtHang {n : Nat} {s : State} {a : Byte} {fs : List BusFrame}
    {onOk onFail : State → Outcome} (hn : fs.length = n)
    (hok : ∀ t, StopsOnlyAtHang n s (onOk t)) (hfail : ∀ t, StopsOnlyAtHang n s (onFail t)) :
    StopsOnlyAtHang n s (afterBus (sendAll a fs s) onOk onFail) := by
  obtain ⟨-, hend⟩ | ⟨fs1, f, fs2, rfl, -, ⟨-, hend⟩ | ⟨hhang, hend⟩ | ⟨-, hend⟩ | ⟨-, hend⟩⟩ :=
    sendAll_cases a fs s <;> rw [hend]
  · exact hok _
  · exact hfail _
  · have hlt : fs1.length < n := by
      rw [← hn, List.length_append, List.length_cons]
      omega
    exact ⟨rfl, fs1.length, hlt, hhang⟩
  · trivial
  · trivial

theorem cosmetic_stopsOnlyAtHang (c : PanelCmd) (s : State) :
    StopsOnlyAtHang 1 s (cosmetic c s) := by
  refine whenReady_stopsOnlyAtHang fun h _ => ?_
  rw [busWrite_eq_sendAll]
  exact afterBus_stopsOnlyAtHang rfl (complete_stopsOnlyAtHang _)
    (fun t => complete_stopsOnlyAtHang _ t)

theorem execDeinit_stopsOnlyAtHang (s : State) : StopsOnlyAtHang 1 s (execDeinit s) := by
  refine whenReady_stopsOnlyAtHang fun h _ => ?_
  rw [busWrite_eq_sendAll]
  exact afterBus_stopsOnlyAtHang rfl (fun t => complete_stopsOnlyAtHang _ t.release)
    (fun t => complete_stopsOnlyAtHang _ t.release)

theorem execShow_stopsOnlyAtHang (s : State) :
    StopsOnlyAtHang (maxTransactions .showBuf s) s (execShow s) := by
  refine whenReady_stopsOnlyAtHang fun h hlife => ?_
  refine afterBus_stopsOnlyAtHang ?_ (complete_stopsOnlyAtHang _) (complete_stopsOnlyAtHang _)
  rw [showFrames_length, maxTransactions, hlife]

/-- INIT sends fifteen frames (R97, R245). -/
theorem initFrames_length (wire : Wire) (w h : Byte) (evcc : Bool) :
    (initFrames wire w h evcc).length = 15 := rfl

theorem execInit_stopsOnlyAtHang (w h a : Byte) (evcc : Bool) (s : State) :
    StopsOnlyAtHang 15 s (execInit w h a evcc s) := by
  unfold execInit
  split
  · exact complete_stopsOnlyAtHang _ s
  · split_ifs
    · exact complete_stopsOnlyAtHang _ s
    · exact complete_stopsOnlyAtHang _ s
    · exact afterBus_stopsOnlyAtHang (initFrames_length _ _ _ _)
        (fun t => complete_stopsOnlyAtHang _ _) (complete_stopsOnlyAtHang _)

theorem execGetPixel_stopsOnlyAtHang (x y : Coord) (s : State) :
    StopsOnlyAtHang 0 s (execGetPixel x y s) := by
  unfold execGetPixel
  cases s.life with
  | uninit | ready => trivial

theorem execSetFont_stopsOnlyAtHang (id : Byte) (s : State) :
    StopsOnlyAtHang 0 s (execSetFont id s) := by
  unfold execSetFont
  split_ifs
  · exact whenReady_stopsOnlyAtHang fun _ _ => complete_stopsOnlyAtHang _ _
  · exact complete_stopsOnlyAtHang _ s

theorem exec_stopsOnlyAtHang (i : Instr) (s : State) :
    StopsOnlyAtHang (maxTransactions i s) s (exec i s) := by
  cases i with
  | setPixel | clear | drawChar | drawString =>
    exact whenReady_stopsOnlyAtHang fun _ _ => complete_stopsOnlyAtHang _ _
  | getPixel x y => exact execGetPixel_stopsOnlyAtHang x y s
  | init w h a evcc => exact execInit_stopsOnlyAtHang w h a evcc s
  | deinit => exact execDeinit_stopsOnlyAtHang s
  | powerOn | powerOff | contrast | invert => exact cosmetic_stopsOnlyAtHang _ s
  | showBuf => exact execShow_stopsOnlyAtHang s
  | setFont id => exact execSetFont_stopsOnlyAtHang id s

end Sys2Proof.Machine

/-- Settles O20: a command can stop only in its bus sequence, and there only at an unanswered
transaction; each command's sequence is as long as R245 counts. -/
theorem completesIfTransportAnswers : Obligations.CompletesIfTransportAnswers := by
  intro i s
  have hstops := Sys2Proof.Machine.exec_stopsOnlyAtHang i s
  exact ⟨hstops.next_of_answered, hstops.ne_refused, fun _ hf => hstops.of_fault hf⟩

namespace Sys2Proof.Machine

/-! ### The unanswered transaction -/

/-- A sequence one of whose frames is never answered, all earlier ones answered `ok`. -/
theorem sendAll_of_hang {s : State} (a : Byte) {fs : List BusFrame} {k : Nat} (hk : k < fs.length)
    (hok : ∀ j < k, s.eventAt j = .ok) (hhang : s.eventAt k = .hang) :
    sendAll a fs s = .stuck := by
  have hlen : (fs.take k).length = k := List.length_take_of_le hk.le
  have hsplit : fs = fs.take k ++ fs[k] :: fs.drop (k + 1) := by simp
  rw [hsplit, sendAll_at a _ _ _ s (by rwa [hlen]), hlen, hhang]

/-- One transaction is number 0 of its sequence. -/
theorem busWrite_of_hang {s : State} {k : Nat} (a : Byte) (f : BusFrame) (hk : k < 1)
    (hhang : s.eventAt k = .hang) : busWrite a f s = .stuck := by
  obtain rfl := Nat.lt_one_iff.mp hk
  rw [busWrite_eq, hhang]

theorem cosmetic_of_hang {s : State} {h : Handle} {k : Nat} (c : PanelCmd)
    (hlife : s.life = .ready h) (hk : k < 1) (hhang : s.eventAt k = .hang) :
    cosmetic c s = .fault .busNeverAnswers := by
  rw [cosmetic, whenReady_of_ready hlife, busWrite_of_hang _ _ hk hhang, afterBus]

theorem execDeinit_of_hang {s : State} {h : Handle} {k : Nat} (hlife : s.life = .ready h)
    (hk : k < 1) (hhang : s.eventAt k = .hang) : execDeinit s = .fault .busNeverAnswers := by
  rw [execDeinit, whenReady_of_ready hlife, busWrite_of_hang _ _ hk hhang, afterBus]

theorem execShow_of_hang {s : State} {h : Handle} {k : Nat} (hlife : s.life = .ready h)
    (hk : k < 2 * h.pages.toNat) (hok : ∀ j < k, s.eventAt j = .ok) (hhang : s.eventAt k = .hang) :
    execShow s = .fault .busNeverAnswers := by
  rw [execShow, whenReady_of_ready hlife,
    sendAll_of_hang _ (by rwa [showFrames_length]) hok hhang, afterBus]

/-- INIT on a geometry that it accepts sends its frames (R141). -/
theorem execInit_of_accepted {s : State} {w h : Byte} (a : Byte) (evcc : Bool)
    (hlife : s.life = .uninit) (hw : w ≠ 0) (hh : h ≠ 0)
    (hcap : byteVal w * ((byteVal h + 7) / 8) ≤ s.cfg.bufCap) :
    execInit w h a evcc s =
      afterBus (sendAll a (initFrames s.cfg.wire w h evcc) s)
        (fun t => complete .ok (t.forgetPicture.withHandle (freshHandle w h a evcc)))
        (complete .ioFail) := by
  rw [← pagesOf_toNat] at hcap
  rw [execInit, hlife]
  dsimp only
  rw [if_neg (not_or.mpr ⟨hw, hh⟩), if_neg (not_lt.mpr hcap)]

theorem execInit_of_hang {s : State} {w h : Byte} {k : Nat} (a : Byte) (evcc : Bool)
    (hlife : s.life = .uninit) (hw : w ≠ 0) (hh : h ≠ 0)
    (hcap : byteVal w * ((byteVal h + 7) / 8) ≤ s.cfg.bufCap) (hk : k < 15)
    (hok : ∀ j < k, s.eventAt j = .ok) (hhang : s.eventAt k = .hang) :
    execInit w h a evcc s = .fault .busNeverAnswers := by
  rw [execInit_of_accepted a evcc hlife hw hh hcap,
    sendAll_of_hang a (by rwa [initFrames_length]) hok hhang, afterBus]

end Sys2Proof.Machine

/-- Settles O58: the command's bus sequence comes to transaction `k`, one of its own, and is stuck
there. -/
theorem stuckAtUnansweredTransaction : Obligations.StuckAtUnansweredTransaction := by
  rintro i s k haccepted hk hok hhang
  obtain ⟨w, ht, a, e, rfl, hlife, hw, hh, hcap⟩ | ⟨hi, h, hlife⟩ := haccepted
  · exact Sys2Proof.Machine.execInit_of_hang a e hlife hw hh hcap hk hok hhang
  · obtain rfl | rfl | rfl | ⟨v, rfl⟩ | ⟨f, rfl⟩ | rfl := hi
    · exact Sys2Proof.Machine.execDeinit_of_hang hlife hk hhang
    · exact Sys2Proof.Machine.cosmetic_of_hang _ hlife hk hhang
    · exact Sys2Proof.Machine.cosmetic_of_hang _ hlife hk hhang
    · exact Sys2Proof.Machine.cosmetic_of_hang _ hlife hk hhang
    · exact Sys2Proof.Machine.cosmetic_of_hang _ hlife hk hhang
    · rw [Sys2Proof.Machine.maxTransactions, hlife] at hk
      exact Sys2Proof.Machine.execShow_of_hang hlife hk hok hhang

namespace Sys2Proof.Machine

/-! ### The pixel mapping on natural coordinates (R52) -/

section
variable {h : Handle} {x y : Nat}

theorem Handle.onScreen_natCast :
    h.onScreen (x : Int) (y : Int) ↔ x < byteVal h.width ∧ y < byteVal h.height := by
  unfold Handle.onScreen
  omega

theorem Handle.idx_natCast : h.idx (x : Int) (y : Int) = y / 8 * byteVal h.width + x := rfl

theorem Handle.pix_natCast (hs : h.onScreen (x : Int) (y : Int)) :
    h.pix x y = (h.buf.read (y / 8 * byteVal h.width + x)).getLsbD (y % 8) := by
  rw [Handle.pix, if_pos hs]
  rfl

end

end Sys2Proof.Machine

/-- Settles O27: `idx_inverse` gives the way from pixels to bits; back, a bit's byte index is its
quotient and remainder by `WIDTH`, and its row is below `HEIGHT`. -/
theorem pixelMappingInverse : Obligations.PixelMappingInverse := by
  intro cfg h hinv
  obtain ⟨hw, -, hpages, -⟩ := hinv
  refine ⟨fun x y hs => ?_, fun i b _ hb hrow => ?_⟩
  · obtain ⟨hlt, hmod, hdiv⟩ := Sys2Proof.Machine.Handle.idx_inverse h hs hpages
    rw [Sys2Proof.Machine.Handle.idx_natCast] at hlt hmod hdiv
    refine ⟨Sys2Proof.Machine.Handle.pix_natCast hs, hlt, hmod, ?_⟩
    rw [hdiv]
    exact Nat.div_add_mod' y 8
  · have hpage : (i / h.width.toNat * 8 + b) / 8 = i / h.width.toNat := by omega
    refine ⟨Sys2Proof.Machine.Handle.onScreen_natCast.mpr ⟨Nat.mod_lt i hw, hrow⟩, ?_, by omega⟩
    rw [hpage]
    exact Nat.div_add_mod' i _

namespace Sys2Proof.Machine

/-! ### Drawings that paint nothing -/

theorem State.withHandle_self {s : State} {h : Handle} (hlife : s.life = .ready h) :
    s.withHandle h = s := by
  rw [State.withHandle, ← hlife]

theorem paintBlock_zero (x y : Int) (h : Handle) : paintBlock 0 x y h = h := rfl

/-- A glyph whose set bits paint blocks that change nothing changes nothing. -/
theorem paintGlyph_eq_self {col : List Byte} {scale : Nat} {h : Handle} (x y : Int)
    (hblock : ∀ gc, ∀ gr < glyphH, glyphBit col gc gr = true → ∀ X Y, paintBlock scale X Y h = h) :
    paintGlyph col scale x y h = h := by
  refine List.foldlRecOn (motive := (· = h)) _ _ rfl ?_
  rintro _ rfl gc -
  refine List.foldlRecOn (motive := (· = _)) _ _ rfl ?_
  rintro _ rfl gr hgr
  split_ifs with hbit
  · exact hblock gc gr (List.mem_range.mp hgr) hbit _ _
  · rfl

/-- Bit 7 of a column is not read (R100): a glyph with no other bit set is blank. -/
theorem glyphBit_of_blank {col : List Byte} (hblank : ∀ v ∈ col, v &&& 0x7F#8 = 0) (gc : Nat)
    {gr : Nat} (hgr : gr < glyphH) : glyphBit col gc gr = false := by
  have hcol : col.getD gc 0 &&& 0x7F#8 = 0 := by
    by_cases hgc : gc < col.length
    · rw [List.getD_eq_getElem _ _ hgc]
      exact hblank _ (List.getElem_mem hgc)
    · rw [List.getD_eq_default _ _ (not_lt.mp hgc)]
      rfl
  have hmask : ∀ r < glyphH, (0x7F#8).getLsbD r = true := by decide
  have hbit : (col.getD gc 0 &&& 0x7F#8).getLsbD gr = false := by
    rw [hcol]
    exact BitVec.getLsbD_zero
  rwa [BitVec.getLsbD_and, hmask gr hgr, Bool.and_true] at hbit

theorem paintChar_of_noGlyph {cfg : Config} {h : Handle} {c : Byte} (x y : Int) (scale : Nat)
    (hg : activeGlyph cfg h.fontSel c = none) : paintChar cfg x y scale c h = h := by
  rw [paintChar, hg]

theorem paintChar_zero (cfg : Config) (x y : Int) (c : Byte) (h : Handle) :
    paintChar cfg x y 0 c h = h := by
  unfold paintChar
  split
  · exact paintGlyph_eq_self x y fun _ _ _ _ X Y => paintBlock_zero X Y h
  · rfl

theorem paintChar_of_blank {cfg : Config} {h : Handle} {c : Byte} {col : List Byte} (x y : Int)
    (scale : Nat) (hg : activeGlyph cfg h.fontSel c = some col)
    (hblank : ∀ v ∈ col, v &&& 0x7F#8 = 0) : paintChar cfg x y scale c h = h := by
  rw [paintChar, hg]
  refine paintGlyph_eq_self x y fun gc gr hgr hbit => ?_
  rw [glyphBit_of_blank hblank gc hgr] at hbit
  contradiction

theorem execDrawChar_of_fixed {s : State} {h : Handle} {x y : Coord} {scale c : Byte}
    (hlife : s.life = .ready h)
    (hfixed : paintChar s.cfg (coordVal x) (coordVal y) (byteVal scale) c h = h) :
    execDrawChar x y scale c s = .next (s.respond ⟨.ok, none⟩) := by
  rw [execDrawChar, whenReady_of_ready hlife, hfixed, State.withHandle_self hlife, complete]

end Sys2Proof.Machine

/-- Settles O50: in each of the three cases the painting leaves the handle as it is. -/
theorem blankDrawingsDrawNothing : Obligations.BlankDrawingsDrawNothing := by
  intro x y scale c s h hlife hcase
  refine Sys2Proof.Machine.execDrawChar_of_fixed hlife ?_
  obtain hnone | rfl | ⟨col, hsome, hblank⟩ := hcase
  · exact Sys2Proof.Machine.paintChar_of_noGlyph _ _ _ hnone
  · exact Sys2Proof.Machine.paintChar_zero _ _ _ c h
  · exact Sys2Proof.Machine.paintChar_of_blank _ _ _ hsome hblank

namespace Sys2Proof.Machine

/-! ### A packet that decodes -/

theorem runPacket_of_decode {p : List Byte} {i : Instr} (hdec : decode p = .ok i) (s : State) :
    runPacket p s = exec i s := by
  rw [runPacket, hdec]

end Sys2Proof.Machine

/-- Settles O7: a step hands the packet to `runPacket`, which runs the command it decodes to. -/
theorem stepRunsDecodedCommand : Obligations.StepRunsDecodedCommand := by
  refine ⟨fun s p rest i hin hdec => ?_, fun s hin => Sys2Proof.Machine.step_of_idle hin⟩
  rw [Sys2Proof.Machine.step_of_packet hin, Sys2Proof.Machine.runPacket_of_decode hdec]

namespace Sys2Proof.Machine

/-! ### Font tables (R58, R100) -/

/-- A table of R100's form holds the column bytes of every code it covers. -/
theorem fontData_index_lt {f : FontTable} {c : Byte} {k : Nat} (hwf : f.wf)
    (hlast : byteVal c ≤ byteVal f.last) (hk : k < glyphW) :
    (byteVal c - byteVal f.first) * glyphW + k < f.data.length := by
  obtain ⟨-, hlen⟩ := hwf
  rw [hlen, FontTable.size]
  simp only [glyphW, byteVal] at *
  omega

theorem fontLookup_of_covered {f : FontTable} {c : Byte}
    (hc : byteVal f.first ≤ byteVal c ∧ byteVal c ≤ byteVal f.last) :
    fontLookup f c = some ((List.range glyphW).map fun k =>
      f.data.getD ((byteVal c - byteVal f.first) * glyphW + k) 0) := if_pos hc

theorem fontLookup_of_not_covered {f : FontTable} {c : Byte}
    (hc : ¬(byteVal f.first ≤ byteVal c ∧ byteVal c ≤ byteVal f.last)) :
    fontLookup f c = none := if_neg hc

end Sys2Proof.Machine

/-- Settles O45: a table of R100's form lacks none of the five bytes, so none is read as blank. -/
theorem fontLookupRule : Obligations.FontLookupRule := by
  intro f c hwf
  refine ⟨fun ⟨hfirst, hlast⟩ =>
      ⟨_, Sys2Proof.Machine.fontLookup_of_covered ⟨hfirst, hlast⟩, rfl, fun k hk => ?_⟩,
    Sys2Proof.Machine.fontLookup_of_not_covered⟩
  have hlt : (c.toNat - f.first.toNat) * 5 + k < f.data.length :=
    Sys2Proof.Machine.fontData_index_lt hwf hlast hk
  simp [Sys2Proof.glyphW, hk, hlt]

namespace Sys2Proof

/-! ### Decoding an encoded command -/

/-- The operand bytes of a command that has a packet read back as the command (R82, R84, R87). -/
theorem decodeOperands_operandBytes {i : Instr} (hwf : i.wf = true) :
    decodeOperands i.opcode i.operandBytes = some i := by
  cases i with
  | clear | deinit | powerOn | powerOff | showBuf | contrast | setFont => rfl
  | setPixel | getPixel | init | invert | drawChar =>
    simp [Instr.opcode, Instr.operandBytes, decodeOperands, i16OfBytes_lo_hi, flagOfByte_flagByte]
  | drawString x y scale s =>
    have hlen : s.length ≤ 255 := of_decide_eq_true hwf
    have hbyte : s.length = (BitVec.ofNat 8 s.length).toNat := by
      rw [BitVec.toNat_ofNat, Nat.mod_eq_of_lt (by omega)]
    simp [Instr.opcode, Instr.operandBytes, decodeOperands, i16OfBytes_lo_hi, ← hbyte]

theorem decode_of_operands {op : Opcode} {rest : List Byte} {i : Instr}
    (h : decodeOperands op rest = some i) : decode (op.byte :: rest) = .ok i :=
  (decode_eq_ok_iff _ i).mpr ⟨op, rest, rfl, h⟩

theorem decode_encode {i : Instr} (hwf : i.wf = true) : decode (encode i) = .ok i :=
  decode_of_operands (decodeOperands_operandBytes hwf)

end Sys2Proof

/-- Settles O1: the decoder finds the command's opcode in byte 0, and each operand field reads back
from its bytes. -/
theorem decodeOfEncodeIsIdentity : Obligations.DecodeOfEncodeIsIdentity :=
  fun _ => Sys2Proof.decode_encode

namespace Sys2Proof

/-! ### The operand formats of R84 -/

/-- The rows of R84: the operand bytes that each opcode takes, and the command they make. -/
inductive OperandFormat : Opcode → List Byte → Instr → Prop
  | setPixel (xl xh yl yh f : Byte) : OperandFormat .setPixel [xl, xh, yl, yh, f]
      (.setPixel (i16OfBytes xl xh) (i16OfBytes yl yh) (flagOfByte f))
  | getPixel (xl xh yl yh : Byte) : OperandFormat .getPixel [xl, xh, yl, yh]
      (.getPixel (i16OfBytes xl xh) (i16OfBytes yl yh))
  | clear : OperandFormat .clear [] .clear
  | init (w h a f : Byte) : OperandFormat .init [w, h, a, f] (.init w h a (flagOfByte f))
  | deinit : OperandFormat .deinit [] .deinit
  | powerOn : OperandFormat .powerOn [] .powerOn
  | powerOff : OperandFormat .powerOff [] .powerOff
  | contrast (v : Byte) : OperandFormat .contrast [v] (.contrast v)
  | invert (f : Byte) : OperandFormat .invert [f] (.invert (flagOfByte f))
  | showBuf : OperandFormat .showBuf [] .showBuf
  | drawChar (xl xh yl yh scale c : Byte) : OperandFormat .drawChar [xl, xh, yl, yh, scale, c]
      (.drawChar (i16OfBytes xl xh) (i16OfBytes yl yh) scale c)
  | drawString (xl xh yl yh scale len : Byte) (s : List Byte) (hlen : s.length = len.toNat) :
      OperandFormat .drawString (xl :: xh :: yl :: yh :: scale :: len :: s)
        (.drawString (i16OfBytes xl xh) (i16OfBytes yl yh) scale s)
  | setFont (id : Byte) : OperandFormat .setFont [id] (.setFont id)

section
variable {op : Opcode} {rest : List Byte} {i : Instr}

theorem OperandFormat.of_decodeOperands (h : decodeOperands op rest = some i) :
    OperandFormat op rest i := by
  cases op with
  | clear | deinit | powerOn | powerOff | showBuf =>
    obtain ⟨rfl, ⟨⟩⟩ := Option.ite_none_right_eq_some.mp h
    constructor
  | setPixel | getPixel | init | contrast | invert | drawChar | setFont =>
    simp only [decodeOperands] at h
    split at h
    · cases h
      constructor
    · cases h
  | drawString =>
    simp only [decodeOperands] at h
    split at h
    · obtain ⟨hlen, ⟨⟩⟩ := Option.ite_none_right_eq_some.mp h
      exact .drawString _ _ _ _ _ _ _ hlen
    · cases h

theorem OperandFormat.decodeOperands_eq (h : OperandFormat op rest i) :
    decodeOperands op rest = some i := by
  cases h with
  | drawString _ _ _ _ _ _ _ hlen => exact if_pos hlen
  | _ => rfl

theorem OperandFormat.decode_eq (h : OperandFormat op rest i) :
    decode (op.byte :: rest) = .ok i := decode_of_operands h.decodeOperands_eq

theorem exists_operandFormat_of_decode {p : List Byte} (h : decode p = .ok i) :
    ∃ op rest, p = op.byte :: rest ∧ OperandFormat op rest i := by
  obtain ⟨op, rest, hp, hops⟩ := (decode_eq_ok_iff p i).mp h
  exact ⟨op, rest, hp, .of_decodeOperands hops⟩

end

/-! ### Encoding a decoded packet -/

/-- A flag byte without reserved bits is the one that its flag is sent as. -/
theorem flagByte_flagOfByte {b : Byte} (h : b &&& 0xFE#8 = 0) : flagByte (flagOfByte b) = b := by
  revert b
  decide

theorem flagByte_flagOfByte_of_reserved {p : List Byte} {k : Nat}
    (h : Machine.reservedSetAt p k = false) : flagByte (flagOfByte (p.getD k 0)) = p.getD k 0 :=
  flagByte_flagOfByte (by simpa [Machine.reservedSetAt] using h)

section
variable {op : Opcode} {rest : List Byte} {i : Instr}

theorem OperandFormat.opcode_eq (h : OperandFormat op rest i) : i.opcode = op := by
  cases h <;> rfl

/-- A string that came in a packet has the length that its `len` byte gives (R87). -/
theorem OperandFormat.wf (h : OperandFormat op rest i) : i.wf = true := by
  cases h with
  | drawString _ _ _ _ _ len s hlen =>
    have := len.isLt
    exact decide_eq_true (by omega)
  | _ => rfl

theorem OperandFormat.operandBytes_length (h : OperandFormat op rest i) :
    i.operandBytes.length = rest.length := by
  cases h <;> rfl

/-- Only the three formats with a flag use `hres`, which for each of them reduces to a claim about its
own flag byte. -/
theorem OperandFormat.operandBytes_eq (h : OperandFormat op rest i)
    (hres : Machine.reservedFlagBits (op.byte :: rest) = false) : i.operandBytes = rest := by
  cases h with
  | clear | deinit | powerOn | powerOff | showBuf | contrast | setFont => rfl
  | getPixel | drawChar => simp [Instr.operandBytes, loByte_i16OfBytes, hiByte_i16OfBytes]
  | setPixel | init | invert =>
    have hflag := flagByte_flagOfByte_of_reserved hres
    simpa [Instr.operandBytes, loByte_i16OfBytes, hiByte_i16OfBytes] using hflag
  | drawString _ _ _ _ _ _ _ hlen =>
    simp [Instr.operandBytes, loByte_i16OfBytes, hiByte_i16OfBytes, hlen]

end

end Sys2Proof

/-- Settles O2: each row of R84 is read back, field by field, from the packet that it makes. -/
theorem encodeOfDecodeRestoresPacket : Obligations.EncodeOfDecodeRestoresPacket := by
  intro p i hdec
  obtain ⟨op, rest, rfl, hform⟩ := Sys2Proof.exists_operandFormat_of_decode hdec
  refine ⟨hform.wf, ?_, fun hres => ?_⟩
  · exact congrArg (· + 1) hform.operandBytes_length
  · rw [Sys2Proof.encode, hform.opcode_eq, hform.operandBytes_eq hres]

namespace Sys2Proof

/-! ### Which packets decode -/

/-- An opcode's operands can be read exactly when they have the length of its format, for
DRAW_STRING with the characters that the `len` byte counts (R84, R87). -/
theorem exists_operandFormat_iff (op : Opcode) (rest : List Byte) :
    (∃ i, OperandFormat op rest i) ↔
      rest.length + 1 = op.baseLength + if op = .drawString then (rest.getD 5 0).toNat else 0 := by
  constructor
  · rintro ⟨i, h⟩
    cases h with
    | drawString _ _ _ _ _ len s hlen =>
      simp only [List.length_cons, hlen, Opcode.baseLength, if_true, List.getD_cons_succ,
        List.getD_cons_zero]
      omega
    | _ => rfl
  · intro hlen
    cases op with
    | clear | deinit | powerOn | powerOff | showBuf =>
      match rest, hlen with
      | [], _ => exact ⟨_, by constructor⟩
    | contrast | invert | setFont =>
      match rest, hlen with
      | [_], _ => exact ⟨_, by constructor⟩
    | getPixel | init =>
      match rest, hlen with
      | [_, _, _, _], _ => exact ⟨_, by constructor⟩
    | setPixel =>
      match rest, hlen with
      | [xl, xh, yl, yh, f], _ => exact ⟨_, .setPixel xl xh yl yh f⟩
    | drawChar =>
      match rest, hlen with
      | [xl, xh, yl, yh, scale, c], _ => exact ⟨_, .drawChar xl xh yl yh scale c⟩
    | drawString =>
      simp only [Opcode.baseLength, if_true] at hlen
      match rest, hlen with
      | xl :: xh :: yl :: yh :: scale :: len :: s, hlen =>
        refine ⟨_, .drawString xl xh yl yh scale len s ?_⟩
        simp only [List.length_cons, List.getD_cons_succ, List.getD_cons_zero] at hlen
        omega

theorem decodable_cons_iff (b : Byte) (rest : List Byte) :
    (∃ i, decode (b :: rest) = .ok i) ↔ ∃ op : Opcode, b = op.byte ∧
      rest.length + 1 = op.baseLength + if op = .drawString then (rest.getD 5 0).toNat else 0 := by
  constructor
  · rintro ⟨i, hdec⟩
    obtain ⟨op, _, ⟨⟩, hform⟩ := exists_operandFormat_of_decode hdec
    exact ⟨op, rfl, (exists_operandFormat_iff op rest).mp ⟨i, hform⟩⟩
  · rintro ⟨op, rfl, hlen⟩
    obtain ⟨i, hform⟩ := (exists_operandFormat_iff op rest).mpr hlen
    exact ⟨i, hform.decode_eq⟩

/-- An opcode byte of one of the commands `ops`, whose packets all have the length `n + 1`. -/
theorem decodable_of_mem {ops : List Opcode} {n : Nat} {b : Byte} {rest : List Byte}
    (hops : ∀ op ∈ ops, op.baseLength = n + 1 ∧ op ≠ .drawString) (hb : b ∈ ops.map Opcode.byte)
    (hlen : rest.length = n) : ∃ i, decode (b :: rest) = .ok i := by
  obtain ⟨op, hop, rfl⟩ := List.mem_map.mp hb
  obtain ⟨hbase, hne⟩ := hops op hop
  exact (decodable_cons_iff _ rest).mpr ⟨op, rfl, by rw [if_neg hne, hbase, hlen, Nat.add_zero]⟩

end Sys2Proof

/-- Settles O3: each opcode falls into the case of its length, and each case holds the bytes of its
opcodes. -/
theorem decodableIffOpcodeAndLength : Obligations.DecodableIffOpcodeAndLength := by
  refine ⟨nofun, fun b rest => ⟨fun hdec => ?_, ?_⟩⟩
  · obtain ⟨op, rfl, hlen⟩ := (Sys2Proof.decodable_cons_iff b rest).mp hdec
    cases op with
    | clear | deinit | powerOn | powerOff | showBuf =>
      exact .inl ⟨by decide, Nat.succ.inj hlen⟩
    | contrast | invert | setFont => exact .inr (.inl ⟨by decide, Nat.succ.inj hlen⟩)
    | getPixel | init => exact .inr (.inr (.inl ⟨by decide, Nat.succ.inj hlen⟩))
    | setPixel => exact .inr (.inr (.inr (.inl ⟨rfl, Nat.succ.inj hlen⟩)))
    | drawChar => exact .inr (.inr (.inr (.inr (.inl ⟨rfl, Nat.succ.inj hlen⟩))))
    | drawString =>
      simp only [Sys2Proof.Opcode.baseLength, if_true] at hlen
      exact .inr (.inr (.inr (.inr (.inr ⟨rfl, by omega, by omega⟩))))
  · rintro (⟨hb, hlen⟩ | ⟨hb, hlen⟩ | ⟨hb, hlen⟩ | ⟨rfl, hlen⟩ | ⟨rfl, hlen⟩ | ⟨rfl, -, hlen⟩)
    · exact Sys2Proof.decodable_of_mem (ops := [.clear, .deinit, .powerOn, .powerOff, .showBuf])
        (by decide) hb hlen
    · exact Sys2Proof.decodable_of_mem (ops := [.contrast, .invert, .setFont]) (by decide) hb hlen
    · exact Sys2Proof.decodable_of_mem (ops := [.getPixel, .init]) (by decide) hb hlen
    · exact Sys2Proof.decodable_of_mem (ops := [.setPixel]) (by decide) (.head _) hlen
    · exact Sys2Proof.decodable_of_mem (ops := [.drawChar]) (by decide) (.head _) hlen
    · refine (Sys2Proof.decodable_cons_iff _ rest).mpr ⟨.drawString, rfl, ?_⟩
      simp only [Sys2Proof.Opcode.baseLength, if_true]
      omega

namespace Sys2Proof

/-! ### Operand values (R82) -/

/-- Two's complement by the sign bit, which is the top bit of the high byte. -/
theorem coordVal_i16OfBytes (lo hi : Byte) :
    Machine.coordVal (i16OfBytes lo hi) =
      if hi.toNat < 128 then ((hi.toNat * 256 + lo.toNat : Nat) : Int)
      else ((hi.toNat * 256 + lo.toNat : Nat) : Int) - 65536 := by
  have hlo := lo.isLt
  have hhi := hi.isLt
  have hval : (i16OfBytes lo hi).toNat = hi.toNat * 256 + lo.toNat := by
    rw [i16OfBytes, BitVec.toNat_ofNat]
    omega
  rw [Machine.coordVal, BitVec.toInt_eq_toNat_cond, hval]
  split_ifs <;> omega

theorem flagOfByte_eq (b : Byte) : flagOfByte b = decide (b.toNat % 2 = 1) :=
  Nat.testBit_zero b.toNat

end Sys2Proof

/-- Settles O4: each packet is a row of R84, whose operand fields have the values of R82. -/
theorem packetOperandValues : Obligations.PacketOperandValues := by
  intro xl xh yl yh a b c d
  simp only [← Sys2Proof.flagOfByte_eq]
  exact ⟨⟨_, _, _,
      (Sys2Proof.OperandFormat.setPixel xl xh yl yh a).decode_eq,
      (Sys2Proof.OperandFormat.getPixel xl xh yl yh).decode_eq,
      (Sys2Proof.OperandFormat.drawChar xl xh yl yh a b).decode_eq,
      (Sys2Proof.OperandFormat.drawString xl xh yl yh a 2 [b, c] rfl).decode_eq,
      Sys2Proof.coordVal_i16OfBytes xl xh, Sys2Proof.coordVal_i16OfBytes yl yh, rfl⟩,
    (Sys2Proof.OperandFormat.init a b c d).decode_eq,
    (Sys2Proof.OperandFormat.contrast a).decode_eq,
    (Sys2Proof.OperandFormat.invert a).decode_eq,
    (Sys2Proof.OperandFormat.setFont a).decode_eq⟩

/-- Settles O5: each packet is its command's own, so the decoder gives the command back. -/
theorem examplePacketsDecode : Obligations.ExamplePacketsDecode :=
  ⟨Sys2Proof.decode_encode (i := .setPixel 5 9 true) rfl,
    Sys2Proof.decode_encode (i := .getPixel (-1) 300) rfl,
    Sys2Proof.decode_encode (i := .clear) rfl,
    Sys2Proof.decode_encode (i := .init 128 64 0x3C false) rfl,
    Sys2Proof.decode_encode (i := .contrast 0x7F) rfl,
    Sys2Proof.decode_encode (i := .showBuf) rfl,
    Sys2Proof.decode_encode (i := .drawChar (-4) 10 3 0x43) rfl,
    Sys2Proof.decode_encode (i := .drawString 0 0 1 [0x41, 0x42]) rfl,
    Sys2Proof.decode_encode (i := .setFont 1) rfl⟩

namespace Sys2Proof.Machine

/-! ### Responses (R88, R89) -/

/-- `nextAll_afterBus` where the transactions keep `P` and the command's end makes `Q` of it. -/
theorem nextAll_afterBus_of_all {P Q : State → Prop} {e : BusEnd} {onOk onFail : State → Outcome}
    (he : e.All P) (hok : ∀ t, P t → NextAll Q (onOk t)) (hfail : ∀ t, P t → NextAll Q (onFail t))
    (hreset : ∀ t, P t → Q t) : NextAll Q (afterBus e onOk onFail) := by
  cases e with
  | ok t => exact hok t he
  | fail t => exact hfail t he
  | reset t => exact hreset t he
  | stuck => trivial

/-- Transactions give no response, however they end. -/
theorem sendAll_keepsResponses (a : Byte) (fs : List BusFrame) (s : State) :
    (sendAll a fs s).All (·.responses = s.responses) :=
  sendAll_all (fun _ _ _ h => h) (fun _ h => h) (fun _ h => h) fs rfl

/-- A response that was given between `s` and `t` meets `P`. -/
def Answers (P : Response → Prop) (s t : State) : Prop :=
  ∀ r, t.responses = s.responses ++ [r] → P r

theorem Answers.of_responses_eq {P : Response → Prop} {s t : State}
    (h : t.responses = s.responses) : Answers P s t := by
  intro r hr
  simp [h] at hr

theorem Answers.respond {P : Response → Prop} {s t : State} {r : Response}
    (h : t.responses = s.responses) (hr : P r) : Answers P s (t.respond r) := by
  intro r' hr'
  obtain rfl : r = r' := by simpa [h] using hr'
  exact hr

/-- The response carries no value byte. -/
def Response.CodeAlone (r : Response) : Prop := r.value = none

/-- The response carries a pixel's value byte, `0x00` unless the result is `OK` (R89). -/
def Response.WithPixelByte (r : Response) : Prop :=
  ∃ v, r.value = some v ∧ (v = 0x00 ∨ v = 0x01) ∧ (r.result ≠ .ok → v = 0x00)

theorem complete_codeAlone {s t : State} (r : Result) (h : t.responses = s.responses) :
    NextAll (Answers Response.CodeAlone s) (complete r t) := Answers.respond h rfl

theorem whenReady_codeAlone {s : State} {body : Handle → Outcome}
    (hready : ∀ h, NextAll (Answers Response.CodeAlone s) (body h)) :
    NextAll (Answers Response.CodeAlone s) (whenReady s body) :=
  nextAll_whenReady (complete_codeAlone _ rfl) hready

theorem afterBus_codeAlone {a : Byte} {fs : List BusFrame} {s : State}
    {onOk onFail : State → Outcome}
    (hok : ∀ t, t.responses = s.responses → NextAll (Answers Response.CodeAlone s) (onOk t))
    (hfail : ∀ t, t.responses = s.responses → NextAll (Answers Response.CodeAlone s) (onFail t)) :
    NextAll (Answers Response.CodeAlone s) (afterBus (sendAll a fs s) onOk onFail) :=
  nextAll_afterBus_of_all (sendAll_keepsResponses a fs s) hok hfail fun _ => .of_responses_eq

theorem cosmetic_codeAlone (c : PanelCmd) (s : State) :
    NextAll (Answers Response.CodeAlone s) (cosmetic c s) := by
  refine whenReady_codeAlone fun h => ?_
  rw [busWrite_eq_sendAll]
  exact afterBus_codeAlone (fun _ => complete_codeAlone _) (fun _ => complete_codeAlone _)

theorem execDeinit_codeAlone (s : State) :
    NextAll (Answers Response.CodeAlone s) (execDeinit s) := by
  refine whenReady_codeAlone fun h => ?_
  rw [busWrite_eq_sendAll]
  exact afterBus_codeAlone (fun t => complete_codeAlone (t := t.release) _)
    (fun t => complete_codeAlone (t := t.release) _)

theorem execShow_codeAlone (s : State) : NextAll (Answers Response.CodeAlone s) (execShow s) :=
  whenReady_codeAlone fun _ =>
    afterBus_codeAlone (fun _ => complete_codeAlone _) (fun _ => complete_codeAlone _)

theorem execInit_codeAlone (w h a : Byte) (evcc : Bool) (s : State) :
    NextAll (Answers Response.CodeAlone s) (execInit w h a evcc s) := by
  unfold execInit
  split
  · exact complete_codeAlone _ rfl
  · split_ifs
    · exact complete_codeAlone _ rfl
    · exact complete_codeAlone _ rfl
    · exact afterBus_codeAlone
        (fun t => complete_codeAlone
          (t := t.forgetPicture.withHandle (freshHandle w h a evcc)) _)
        (fun _ => complete_codeAlone _)

theorem execSetFont_codeAlone (id : Byte) (s : State) :
    NextAll (Answers Response.CodeAlone s) (execSetFont id s) := by
  unfold execSetFont
  split_ifs
  · exact whenReady_codeAlone fun _ => complete_codeAlone _ rfl
  · exact complete_codeAlone _ rfl

theorem exec_codeAlone {i : Instr} (hi : ∀ x y, i ≠ .getPixel x y) (s : State) :
    NextAll (Answers Response.CodeAlone s) (exec i s) := by
  cases i with
  | setPixel | clear | drawChar | drawString =>
    exact whenReady_codeAlone fun _ => complete_codeAlone _ rfl
  | getPixel x y => exact absurd rfl (hi x y)
  | init w h a evcc => exact execInit_codeAlone w h a evcc s
  | deinit => exact execDeinit_codeAlone s
  | powerOn | powerOff | contrast | invert => exact cosmetic_codeAlone _ s
  | showBuf => exact execShow_codeAlone s
  | setFont id => exact execSetFont_codeAlone id s

theorem pixelByte_eq_zero_or_one (on : Bool) : pixelByte on = 0x00 ∨ pixelByte on = 0x01 := by
  cases on with
  | false => exact .inl rfl
  | true => exact .inr rfl

theorem exec_getPixel_withPixelByte (x y : Coord) (s : State) :
    NextAll (Answers Response.WithPixelByte s) (exec (.getPixel x y) s) := by
  rw [exec, execGetPixel]
  split
  · exact Answers.respond rfl ⟨_, rfl, .inl rfl, fun _ => rfl⟩
  · exact Answers.respond rfl ⟨_, rfl, pixelByte_eq_zero_or_one _, fun h => absurd rfl h⟩

theorem Response.CodeAlone.bytes_eq {r : Response} (h : r.CodeAlone) :
    r.bytes = [r.result.code] := by
  rw [Response.bytes, h]

theorem Response.bytes_of_value {r : Response} {v : Byte} (h : r.value = some v) :
    r.bytes = [r.result.code, v] := by
  rw [Response.bytes, h]

end Sys2Proof.Machine

/-- Settles O6: every command but GET_PIXEL ends in a response without a value byte, or in none. -/
theorem responseBytes : Obligations.ResponseBytes := by
  refine ⟨rfl, rfl, rfl, rfl, rfl, fun i s t r hexec hresp => ⟨fun hi => ?_, ?_⟩⟩
  · have hanswer := Sys2Proof.Machine.exec_codeAlone hi s
    rw [hexec] at hanswer
    exact (hanswer r hresp).bytes_eq
  · rintro x y rfl
    have hanswer := Sys2Proof.Machine.exec_getPixel_withPixelByte x y s
    rw [hexec] at hanswer
    obtain ⟨v, hv, hbit, hfail⟩ := hanswer r hresp
    exact ⟨v, Sys2Proof.Machine.Response.bytes_of_value hv, hbit, hfail⟩

namespace Sys2Proof.Machine

/-! ### The bus sequences of INIT and SHOW, all transactions answered -/

theorem execInit_of_answered {s : State} {w h : Byte} (a : Byte) (evcc : Bool)
    (hlife : s.life = .uninit) (hw : w ≠ 0) (hh : h ≠ 0)
    (hcap : byteVal w * ((byteVal h + 7) / 8) ≤ s.cfg.bufCap)
    (hok : ∀ k < 15, s.eventAt k = .ok) :
    execInit w h a evcc s =
      complete .ok ((s.afterSent a (initFrames s.cfg.wire w h evcc)).forgetPicture.withHandle
        (freshHandle w h a evcc)) := by
  rw [execInit_of_accepted a evcc hlife hw hh hcap,
    sendAll_ok a _ s (by rwa [initFrames_length]), afterBus]

theorem execShow_of_answered {s : State} {h : Handle} (hlife : s.life = .ready h)
    (hok : ∀ k < 2 * h.pages.toNat, s.eventAt k = .ok) :
    execShow s = complete .ok (s.afterSent h.address (showFrames h)) := by
  rw [execShow, whenReady_of_ready hlife,
    sendAll_ok h.address _ s (by rwa [showFrames_length]), afterBus]

/-- The `TRACE` entries of SHOW's frames, page by page. -/
theorem sentOk_showFrames (w : Wire) (a : Byte) (h : Handle) :
    sentOk w a (showFrames h) =
      (List.range h.pages.toNat).flatMap fun p => sentOk w a (pageFrames h p) :=
  List.map_flatMap

end Sys2Proof.Machine

/-- Settles O31: `TRACE` gains the frames of `initFrames`, and their bytes are those of R97. -/
theorem initFrameSequence : Obligations.InitFrameSequence := by
  intro w h a e s hlife hw hh hcap hok
  exact ⟨_, Sys2Proof.Machine.execInit_of_answered a e hlife hw hh hcap hok, ⟨none, rfl⟩, rfl⟩

/-- Settles O37: `TRACE` gains each page's two frames, and their bytes are those of R95 and R98. -/
theorem showFrameSequence : Obligations.ShowFrameSequence := by
  intro s h hlife hok
  refine ⟨_, Sys2Proof.Machine.execShow_of_answered hlife hok, ⟨none, rfl⟩, ?_⟩
  exact congrArg (s.trace ++ ·) (Sys2Proof.Machine.sentOk_showFrames s.cfg.wire h.address h)

namespace Sys2Proof

/-! ### Packets that do not decode -/

/-- Why a packet does not decode: R86 (a) to (c). -/
theorem decode_error_cases {p : List Byte} {e : IllegalPacket} (h : decode p = .error e) :
    (p = [] ∧ e = .emptyPacket) ∨
    (∃ b rest, p = b :: rest ∧ opcodeOf b = none ∧ e = .unknownOpcode b) ∨
    ∃ op rest, p = Opcode.byte op :: rest ∧ e = .wrongLength op := by
  cases p with
  | nil => exact .inl ⟨rfl, (Except.error.inj h).symm⟩
  | cons b rest =>
    cases hop : opcodeOf b with
    | none =>
      rw [decode, hop] at h
      exact .inr (.inl ⟨b, rest, rfl, hop, (Except.error.inj h).symm⟩)
    | some op =>
      obtain rfl := opcodeOf_eq_some hop
      rw [decode_byte] at h
      cases hops : decodeOperands op rest with
      | none =>
        rw [hops] at h
        exact .inr (.inr ⟨op, rest, rfl, (Except.error.inj h).symm⟩)
      | some i => rw [hops] at h; cases h

namespace Machine

/-- The bytes of the answer to an illegal packet (R89, R206; log 14). -/
theorem illegalPacketResponse_bytes {p : List Byte} {e : IllegalPacket}
    (h : decode p = .error e) :
    (illegalPacketResponse e).bytes = if p.head? = some 0x02 then [0x04, 0x00] else [0x04] := by
  obtain ⟨rfl, rfl⟩ | ⟨b, rest, rfl, hop, rfl⟩ | ⟨op, rest, rfl, rfl⟩ := decode_error_cases h
  · rfl
  · have hb : b ≠ Opcode.getPixel.byte := by
      rintro rfl
      simp [opcodeOf_byte] at hop
    exact (if_neg fun hhead => hb (Option.some.inj hhead)).symm
  · cases op <;> rfl

theorem runPacket_of_error {p : List Byte} {e : IllegalPacket} (h : decode p = .error e)
    (s : State) : runPacket p s = .next (s.respond (illegalPacketResponse e)) := by
  rw [runPacket, h]

theorem execSetFont_of_unwired {s : State} {id : Byte} (h : s.cfg.nfonts ≤ byteVal id) :
    execSetFont id s = .next (s.respond ⟨.illegalCommand, none⟩) := if_neg (not_lt.mpr h)

end Machine

end Sys2Proof

/-- Settles O8: a packet that does not decode is answered where it is checked, and so is SET_FONT of
a font that is not wired. -/
theorem illegalPacketHasNoEffect : Obligations.IllegalPacketHasNoEffect := by
  refine ⟨fun s p rest hin hillegal => ?_, fun _ _ => Sys2Proof.Machine.execSetFont_of_unwired⟩
  rw [Sys2Proof.Machine.step_of_packet hin]
  cases hdec : Sys2Proof.decode p with
  | ok i => exact absurd hdec (hillegal i)
  | error e =>
    exact ⟨_, Sys2Proof.Machine.runPacket_of_error hdec _,
      Sys2Proof.Machine.illegalPacketResponse_bytes hdec⟩

namespace Sys2Proof.Machine

/-! ### The state check of R209 in `UNINIT` -/

theorem whenReady_of_uninit {s : State} (hlife : s.life = .uninit) (body : Handle → Outcome) :
    whenReady s body = .next (s.respond ⟨.illegalState, none⟩) := by
  rw [whenReady, hlife]
  rfl

/-! ### The commands of the buffer family in `READY` -/

section
variable {s : State} {h : Handle}

/-- R121: only the buffer of the handle is written. -/
theorem exec_setPixel_of_ready (x y : Coord) (on : Bool) (hlife : s.life = .ready h) :
    exec (.setPixel x y on) s =
      .next ((s.withHandle { h with buf := (h.setPixel (coordVal x) (coordVal y) on).buf }).respond
        ⟨.ok, none⟩) := by
  rw [← Handle.setPixel_keeps]
  exact whenReady_of_ready hlife _

/-- R123. -/
theorem exec_getPixel_of_ready (x y : Coord) (hlife : s.life = .ready h) :
    exec (.getPixel x y) s =
      .next (s.respond ⟨.ok, some (pixelByte (h.pix (coordVal x) (coordVal y)))⟩) := by
  rw [exec, execGetPixel, hlife]

/-- R125. -/
theorem exec_clear_of_ready (hlife : s.life = .ready h) :
    exec .clear s =
      .next ((s.withHandle { h with buf := zeroBytes h.buf h.size }).respond ⟨.ok, none⟩) :=
  whenReady_of_ready hlife _

end

theorem exec_getPixel_of_uninit {s : State} (x y : Coord) (hlife : s.life = .uninit) :
    exec (.getPixel x y) s = .next (s.respond ⟨.illegalState, some 0x00⟩) := by
  rw [exec, execGetPixel, hlife]

/-! ### A pixel write and a pixel read, on the screen and off it -/

section
variable {h : Handle} {x y : Int}

/-- Clipping (R55, R121). -/
theorem Handle.setPixel_of_offScreen (on : Bool) (hs : ¬h.onScreen x y) :
    h.setPixel x y on = h := if_neg hs

theorem Handle.pix_of_onScreen (hs : h.onScreen x y) :
    h.pix x y = (h.buf.read (h.idx x y)).getLsbD (bitOf y) := if_pos hs

/-- An out-of-range pixel reads as off (R123). -/
theorem Handle.pix_of_offScreen (hs : ¬h.onScreen x y) : h.pix x y = false := if_neg hs

theorem Handle.setPixel_read_of_onScreen (on : Bool) (hs : h.onScreen x y) (a : Nat) :
    (h.setPixel x y on).buf.read a =
      if a = h.idx x y then withBit (h.buf.read a) (bitOf y) on else h.buf.read a := by
  simp only [Handle.setPixel_read, and_iff_right hs, eq_comm]

end

@[simp] theorem Handle.setPixel_onScreen (h : Handle) (x y : Int) (on : Bool) (X Y : Int) :
    (h.setPixel x y on).onScreen X Y ↔ h.onScreen X Y := by
  rw [Handle.onScreen, Handle.setPixel_width, Handle.setPixel_height]

@[simp] theorem Handle.setPixel_idx (h : Handle) (x y : Int) (on : Bool) (X Y : Int) :
    (h.setPixel x y on).idx X Y = h.idx X Y := by
  rw [Handle.idx, Handle.setPixel_width, Handle.idx]

/-- The read-back law of R122: by the injectivity of the pixel mapping, no other pixel of the screen
has the bit that is written. -/
theorem Handle.setPixel_pix {h : Handle} (x y : Int) (on : Bool) {X Y : Int}
    (hS : h.onScreen X Y) :
    (h.setPixel x y on).pix X Y = if X = x ∧ Y = y then on else h.pix X Y := by
  have hS' : (h.setPixel x y on).onScreen X Y := (h.setPixel_onScreen x y on X Y).mpr hS
  have hsame : (h.onScreen x y ∧ h.idx x y = h.idx X Y ∧ bitOf Y = bitOf y) ↔ X = x ∧ Y = y := by
    constructor
    · rintro ⟨hs, hi, hb⟩
      exact Handle.idx_injective h hS hs hi.symm hb
    · rintro ⟨rfl, rfl⟩
      exact ⟨hS, rfl, rfl⟩
  rw [Handle.pix_of_onScreen hS', Handle.setPixel_idx, Handle.setPixel_bit,
    Handle.pix_of_onScreen hS]
  simp only [hsame]

/-! ### The cleared buffer -/

/-- Where nothing is listed beyond the buffer, its canonical form after CLEAR is the empty list. -/
theorem zeroBytes_eq_nil {m : Memory} {n : Nat} (hm : m.wf) (hbelow : ∀ c ∈ m, c.1 < n) :
    zeroBytes m n = [] := by
  refine List.eq_nil_iff_forall_not_mem.mpr fun c hc => ?_
  obtain ⟨hread, hne⟩ := (Memory.mem_iff_read (Memory.wf_zeroBytes n hm) c).mp hc
  have hlt : c.1 < n := Memory.zeroBytes_below n n le_rfl hbelow c hc
  rw [Memory.read_zeroBytes, if_pos hlt] at hread
  exact hne hread.symm

end Sys2Proof.Machine

/-- Settles O22: the buffer after SET_PIXEL is that of `setPixel`, which writes the byte of the pixel
on the screen and nothing off it. -/
theorem setPixelResult : Obligations.SetPixelResult := by
  intro x y on s
  obtain ⟨hhead, hlength, -⟩ := Sys2Proof.Laws.EncodingShape.setPixel x y on
  refine ⟨hhead, hlength, fun hlife => Sys2Proof.Machine.whenReady_of_uninit hlife _,
    fun h hlife => ⟨_, Sys2Proof.Machine.exec_setPixel_of_ready x y on hlife, fun hs a => ?_,
      fun hs => ?_⟩⟩
  · exact Sys2Proof.Machine.Handle.setPixel_read_of_onScreen on hs a
  · rw [Sys2Proof.Machine.Handle.setPixel_of_offScreen on hs]

/-- Settles O23: the read-back law of `setPixel` on the screen, clipping off it. -/
theorem setPixelReadsBack : Obligations.SetPixelReadsBack := by
  intro x y on s h hlife
  refine ⟨_, _, Sys2Proof.Machine.exec_setPixel_of_ready x y on hlife, rfl, ?_⟩
  rw [← Sys2Proof.Machine.Handle.setPixel_keeps]
  refine ⟨fun hs => ⟨?_, fun X Y hS hne => ?_⟩, fun hs a => ?_⟩
  · rw [Sys2Proof.Machine.Handle.setPixel_pix _ _ _ hs, if_pos ⟨rfl, rfl⟩]
  · rw [Sys2Proof.Machine.Handle.setPixel_pix _ _ _ hS, if_neg]
    rintro ⟨rfl, rfl⟩
    exact hne rfl
  · rw [Sys2Proof.Machine.Handle.setPixel_of_offScreen on hs]

/-- Settles O25: CLEAR writes 0 to every byte below the buffer's size, and under the invariant
nothing is listed beyond it. -/
theorem clearResult : Obligations.ClearResult := by
  intro s
  refine ⟨rfl, fun hlife => Sys2Proof.Machine.whenReady_of_uninit hlife _,
    fun h hlife => ⟨_, Sys2Proof.Machine.exec_clear_of_ready hlife, fun a => ?_, fun hinv => ?_⟩⟩
  · exact Sys2Proof.Machine.Memory.read_zeroBytes _ _ a
  · obtain ⟨-, -, -, -, -, hwf, hbelow, -⟩ := hinv
    exact Sys2Proof.Machine.zeroBytes_eq_nil hwf hbelow

/-- Settles O24: the answer is the pixel's bit on the screen and off outside it. -/
theorem getPixelResult : Obligations.GetPixelResult := by
  intro x y s
  obtain ⟨hhead, hlength, -⟩ := Sys2Proof.Laws.EncodingShape.getPixel x y
  refine ⟨hhead, hlength, Sys2Proof.Machine.exec_getPixel_of_uninit x y,
    fun h hlife => ⟨fun hs => ?_, fun hs => ?_⟩⟩
  · rw [Sys2Proof.Machine.exec_getPixel_of_ready x y hlife,
      Sys2Proof.Machine.Handle.pix_of_onScreen hs]
    rfl
  · rw [Sys2Proof.Machine.exec_getPixel_of_ready x y hlife,
      Sys2Proof.Machine.Handle.pix_of_offScreen hs]
    rfl

namespace Sys2Proof.Machine

/-! ### The frame of the buffer family (R120) -/

/-- The commands of the buffer model (`spec/40_buffer_model.md`). -/
def BufferCommand (i : Instr) : Prop :=
  (∃ x y on, i = .setPixel x y on) ∨ (∃ x y, i = .getPixel x y) ∨ i = .clear

theorem BufferCommand.exec_of_uninit {i : Instr} {s : State} (hi : BufferCommand i)
    (hlife : s.life = .uninit) : ∃ r, exec i s = .next (s.respond r) := by
  obtain ⟨x, y, on, rfl⟩ | ⟨x, y, rfl⟩ | rfl := hi
  · exact ⟨_, whenReady_of_uninit hlife _⟩
  · exact ⟨_, exec_getPixel_of_uninit x y hlife⟩
  · exact ⟨_, whenReady_of_uninit hlife _⟩

/-- Everything a buffer command does in `READY`: a new buffer, or for GET_PIXEL the one that was
there, and a response. -/
theorem BufferCommand.exec_of_ready {i : Instr} {s : State} {h : Handle} (hi : BufferCommand i)
    (hlife : s.life = .ready h) :
    ∃ m v, exec i s = .next ((s.withHandle { h with buf := m }).respond ⟨.ok, v⟩) ∧
      ((∃ x y, i = .getPixel x y) → m = h.buf) := by
  obtain ⟨x, y, on, rfl⟩ | ⟨x, y, rfl⟩ | rfl := hi
  · exact ⟨_, _, exec_setPixel_of_ready x y on hlife, nofun⟩
  · refine ⟨h.buf, some (pixelByte (h.pix (coordVal x) (coordVal y))), ?_, fun _ => rfl⟩
    rw [State.withHandle_self hlife]
    exact exec_getPixel_of_ready x y hlife
  · exact ⟨_, _, exec_clear_of_ready hlife, nofun⟩

end Sys2Proof.Machine

/-- Settles O26: delivering a response and replacing the buffer write none of the other fields. -/
theorem bufferFamilyFrame : Obligations.BufferFamilyFrame := by
  intro i s (hi : Sys2Proof.Machine.BufferCommand i)
  cases hlife : s.life with
  | uninit =>
    obtain ⟨r, hexec⟩ := hi.exec_of_uninit hlife
    exact ⟨_, hexec, rfl, rfl, rfl, rfl, rfl, rfl, fun _ => hlife, nofun⟩
  | ready h =>
    obtain ⟨m, v, hexec, hm⟩ := hi.exec_of_ready hlife
    refine ⟨_, hexec, rfl, rfl, rfl, rfl, rfl, rfl, nofun, ?_⟩
    rintro _ ⟨⟩
    exact ⟨⟨v, rfl⟩, m, rfl, hm⟩

namespace Sys2Proof.Machine

/-! ### Which command writes which field of the handle -/

/-- The commands of `READY` that do not write the buffer. -/
def KeepsBuffer (i : Instr) : Prop :=
  i = .powerOn ∨ i = .powerOff ∨ (∃ v, i = .contrast v) ∨ (∃ f, i = .invert f) ∨
    i = .showBuf ∨ (∃ id, i = .setFont id) ∨ ∃ x y, i = .getPixel x y

/-- What a completed command other than INIT and DEINIT leaves of the handle `h` in `h'`: the fields
that INIT fixes, and the font selection and the buffer where the command does not write them. -/
structure HandleFrame (i : Instr) (h h' : Handle) : Prop where
  width : h'.width = h.width
  height : h'.height = h.height
  pages : h'.pages = h.pages
  address : h'.address = h.address
  externalVcc : h'.externalVcc = h.externalVcc
  fontSel : (∀ id, i ≠ .setFont id) → h'.fontSel = h.fontSel
  buf : KeepsBuffer i → h'.buf = h.buf

theorem HandleFrame.refl (i : Instr) (h : Handle) : HandleFrame i h h :=
  ⟨rfl, rfl, rfl, rfl, rfl, fun _ => rfl, fun _ => rfl⟩

theorem HandleFrame.of_bufferOnly {i : Instr} {h h' : Handle} (hi : ¬KeepsBuffer i)
    (hkeeps : h' = { h with buf := h'.buf }) : HandleFrame i h h' := by
  rw [hkeeps]
  exact ⟨rfl, rfl, rfl, rfl, rfl, fun _ => rfl, fun hk => absurd hk hi⟩

theorem HandleFrame.setFont (id : Byte) (h : Handle) :
    HandleFrame (.setFont id) h { h with fontSel := id } :=
  ⟨rfl, rfl, rfl, rfl, rfl, fun hid => absurd rfl (hid id), fun _ => rfl⟩

/-- From `s` to `t` the block stays in its lifecycle state, and its handle meets the frame of `i`. -/
def LifeFrame (i : Instr) (s t : State) : Prop :=
  (s.life = .uninit → t.life = .uninit) ∧
    ∀ h, s.life = .ready h → ∃ h', t.life = .ready h' ∧ HandleFrame i h h'

theorem LifeFrame.of_life_eq {i : Instr} {s t : State} (hlife : t.life = s.life) :
    LifeFrame i s t :=
  ⟨hlife.trans, fun h hready => ⟨h, hlife.trans hready, .refl i h⟩⟩

theorem LifeFrame.of_ready {i : Instr} {s t : State} {h h' : Handle} (hs : s.life = .ready h)
    (ht : t.life = .ready h') (hframe : HandleFrame i h h') : LifeFrame i s t := by
  refine ⟨fun huninit => (nomatch hs.symm.trans huninit), fun k hk => ⟨h', ht, ?_⟩⟩
  obtain rfl : h = k := Lifecycle.ready.inj (hs.symm.trans hk)
  exact hframe

/-- The command met its frame, or a reset abandoned it and it has given no response. -/
def LifeFrameIfCompleted (i : Instr) (s t : State) : Prop :=
  LifeFrame i s t ∨ t.responses = s.responses

section
variable {i : Instr} {s : State}

theorem complete_lifeFrame {t : State} (r : Result) (hlife : t.life = s.life) :
    NextAll (LifeFrameIfCompleted i s) (complete r t) :=
  nextAll_complete (.inl (.of_life_eq hlife))

theorem whenReady_lifeFrame {body : Handle → Outcome}
    (hready : ∀ h, s.life = .ready h → NextAll (LifeFrameIfCompleted i s) (body h)) :
    NextAll (LifeFrameIfCompleted i s) (whenReady s body) :=
  nextAll_whenReady_of_life (complete_lifeFrame _ rfl) hready

/-- A command that completes with `OK` and a handle computed from the one that is there. -/
theorem whenReady_withHandle_lifeFrame {g : Handle → Handle} (hg : ∀ h, HandleFrame i h (g h)) :
    NextAll (LifeFrameIfCompleted i s)
      (whenReady s fun h => complete .ok (s.withHandle (g h))) :=
  whenReady_lifeFrame fun h hlife => nextAll_complete (.inl (.of_ready hlife rfl (hg h)))

/-- A sequence of transactions that the transport ends leaves the lifecycle state alone, and one
that a reset ends has given no response. -/
theorem afterBus_lifeFrame {a : Byte} {fs : List BusFrame} {onOk onFail : State → Outcome}
    (hok : ∀ t, t.life = s.life → NextAll (LifeFrameIfCompleted i s) (onOk t))
    (hfail : ∀ t, t.life = s.life → NextAll (LifeFrameIfCompleted i s) (onFail t)) :
    NextAll (LifeFrameIfCompleted i s) (afterBus (sendAll a fs s) onOk onFail) := by
  obtain ⟨-, hend⟩ | ⟨fs1, f, fs2, -, -, ⟨-, hend⟩ | ⟨-, hend⟩ | ⟨-, hend⟩ | ⟨-, hend⟩⟩ :=
    sendAll_cases a fs s <;> rw [hend]
  · exact hok _ rfl
  · exact hfail _ rfl
  · trivial
  · exact .inr rfl
  · exact .inr rfl

end

theorem cosmetic_lifeFrame {i : Instr} (c : PanelCmd) (s : State) :
    NextAll (LifeFrameIfCompleted i s) (cosmetic c s) := by
  refine whenReady_lifeFrame fun h _ => ?_
  rw [busWrite_eq_sendAll]
  exact afterBus_lifeFrame (fun _ => complete_lifeFrame _) (fun _ => complete_lifeFrame _)

theorem execShow_lifeFrame {i : Instr} (s : State) :
    NextAll (LifeFrameIfCompleted i s) (execShow s) :=
  whenReady_lifeFrame fun _ _ =>
    afterBus_lifeFrame (fun _ => complete_lifeFrame _) (fun _ => complete_lifeFrame _)

theorem execGetPixel_lifeFrame {i : Instr} (x y : Coord) (s : State) :
    NextAll (LifeFrameIfCompleted i s) (execGetPixel x y s) := by
  unfold execGetPixel
  split
  · exact .inl (.of_life_eq rfl)
  · exact .inl (.of_life_eq rfl)

theorem execSetFont_lifeFrame (id : Byte) (s : State) :
    NextAll (LifeFrameIfCompleted (.setFont id) s) (execSetFont id s) := by
  unfold execSetFont
  split_ifs
  · exact whenReady_withHandle_lifeFrame (HandleFrame.setFont id)
  · exact complete_lifeFrame _ rfl

theorem exec_lifeFrame {i : Instr} (s : State) (hinit : ∀ w h a e, i ≠ .init w h a e)
    (hdeinit : i ≠ .deinit) : NextAll (LifeFrameIfCompleted i s) (exec i s) := by
  cases i with
  | setPixel x y on =>
    exact whenReady_withHandle_lifeFrame fun h =>
      .of_bufferOnly (by simp [KeepsBuffer]) (h.setPixel_keeps _ _ on)
  | getPixel x y => exact execGetPixel_lifeFrame x y s
  | clear =>
    exact whenReady_withHandle_lifeFrame fun _ => .of_bufferOnly (by simp [KeepsBuffer]) rfl
  | init w h a e => exact absurd rfl (hinit w h a e)
  | deinit => exact absurd rfl hdeinit
  | powerOn | powerOff | contrast | invert => exact cosmetic_lifeFrame _ s
  | showBuf => exact execShow_lifeFrame s
  | drawChar x y scale c =>
    exact whenReady_withHandle_lifeFrame fun h =>
      .of_bufferOnly (by simp [KeepsBuffer]) (Paints.char s.cfg _ _ _ c h).keeps
  | drawString x y scale str =>
    exact whenReady_withHandle_lifeFrame fun h =>
      .of_bufferOnly (by simp [KeepsBuffer]) (Paints.string s.cfg _ _ _ 0 str h).keeps
  | setFont id => exact execSetFont_lifeFrame id s

end Sys2Proof.Machine

/-- Settles O35: every command but INIT and DEINIT that is not abandoned by a reset meets its
frame. -/
theorem onlyInitAndDeinitChangeLifecycle : Obligations.OnlyInitAndDeinitChangeLifecycle := by
  intro i s t r hexec hcompleted hinit hdeinit
  have hframe := Sys2Proof.Machine.exec_lifeFrame s hinit hdeinit
  rw [hexec] at hframe
  obtain ⟨huninit, hready⟩ :=
    hframe.resolve_right (Sys2Proof.Machine.State.completedAs.responses_ne hcompleted)
  refine ⟨huninit, fun h hlife => ?_⟩
  obtain ⟨h', ht, hh⟩ := hready h hlife
  exact ⟨h', ht, hh.width, hh.height, hh.pages, hh.address, hh.externalVcc, hh.fontSel, hh.buf⟩

namespace Sys2Proof.Machine

/-! ### INIT: the rejected geometry and the first failed transaction -/

/-- R142. -/
theorem execInit_of_rejected {s : State} {w h : Byte} (a : Byte) (evcc : Bool)
    (hlife : s.life = .uninit)
    (hbad : w = 0 ∨ h = 0 ∨ s.cfg.bufCap < byteVal w * ((byteVal h + 7) / 8)) :
    execInit w h a evcc s = .next (s.respond ⟨.invalidGeometry, none⟩) := by
  rw [← pagesOf_toNat, ← or_assoc] at hbad
  rw [execInit, hlife]
  dsimp only
  split_ifs with hzero hcap
  · rfl
  · rfl
  · exact absurd hbad (not_or.mpr ⟨hzero, hcap⟩)

/-- A sequence whose frame `f` fails, all earlier ones answered `ok`. -/
theorem sendAll_of_fail {s : State} (a : Byte) {fs : List BusFrame} {f : BusFrame} {k : Nat}
    (hf : fs[k]? = some f) (hok : ∀ j < k, s.eventAt j = .ok) (hfail : s.eventAt k = .fail) :
    sendAll a fs s = .fail ((s.afterSent a (fs.take k)).dropEvent.record a f .fail) := by
  obtain ⟨hk, rfl⟩ := List.getElem?_eq_some_iff.mp hf
  have hlen : (fs.take k).length = k := List.length_take_of_le hk.le
  have hsplit : fs = fs.take k ++ fs[k] :: fs.drop (k + 1) := by simp
  have hend := sendAll_at a (fs.take k) fs[k] (fs.drop (k + 1)) s (by rwa [hlen])
  rwa [← hsplit, hlen, hfail] at hend

/-- R143. -/
theorem execInit_of_fail {s : State} {w h : Byte} {f : BusFrame} {k : Nat} (a : Byte) (evcc : Bool)
    (hlife : s.life = .uninit) (hw : w ≠ 0) (hh : h ≠ 0)
    (hcap : byteVal w * ((byteVal h + 7) / 8) ≤ s.cfg.bufCap)
    (hf : (initFrames s.cfg.wire w h evcc)[k]? = some f) (hok : ∀ j < k, s.eventAt j = .ok)
    (hfail : s.eventAt k = .fail) :
    execInit w h a evcc s =
      complete .ioFail ((s.afterSent a ((initFrames s.cfg.wire w h evcc).take k)).dropEvent.record
        a f .fail) := by
  rw [execInit_of_accepted a evcc hlife hw hh hcap, sendAll_of_fail a hf hok hfail, afterBus]

/-! ### The panel under the frames of INIT -/

/-- Only the first of a sequence of frames to one target can meet another target's panel. -/
theorem Panel.foldl_accept_at (wire : Wire) (a : Byte) (fs : List BusFrame) {d : Panel}
    (hd : d.target = some a) :
    fs.foldl (fun d f => (d.at a).accept wire f) d = fs.foldl (Panel.accept wire) d := by
  induction fs generalizing d with
  | nil => rfl
  | cons f fs ih =>
    rw [List.foldl_cons, List.foldl_cons, Panel.at_same hd, ih ((d.accept_target wire f).trans hd)]

/-- The panel `d` with every setting that INIT sends (R97). -/
def Panel.initialised (wire : Wire) (w h : Byte) (evcc : Bool) (d : Panel) : Panel :=
  { d with
    power := some true
    inverted := some false
    contrast := some wire.contrastDefault
    addressingMode := some wire.memModeHorizontal
    clockDivide := some wire.clockDivVal
    muxRatio := some (h - 1)
    displayOffset := some 0
    startLine := some 0
    chargePump := some (chargePumpVal wire evcc)
    segRemap := some wire.segRemap
    comDirection := some wire.comDir
    comPins := some (comPinVal wire.comPinCfg w h)
    vcomLevel := some wire.vcomLevel
    entireOn := some false }

/-- The first frame turns the panel off, the last one on, and each setting is sent once. -/
theorem Panel.foldl_accept_initFrames (wire : Wire) (w h : Byte) (evcc : Bool) (d : Panel) :
    (initFrames wire w h evcc).foldl (Panel.accept wire) d = d.initialised wire w h evcc := by
  cases d
  rfl

theorem State.afterSent_initFrames_panel (s : State) (w h a : Byte) (evcc : Bool) :
    (s.afterSent a (initFrames s.cfg.wire w h evcc)).panel =
      (s.panel.at a).initialised s.cfg.wire w h evcc := by
  have hfirst : (s.afterSent a (initFrames s.cfg.wire w h evcc)).panel =
      (initFrames s.cfg.wire w h evcc).foldl (fun d f => (d.at a).accept s.cfg.wire f)
        (s.panel.at a) := by
    rw [State.afterSent_panel, initFrames, initSteps, List.map_cons, List.foldl_cons,
      List.foldl_cons, Panel.at_same (s.panel.at_target a)]
  rw [hfirst, Panel.foldl_accept_at _ _ _ (s.panel.at_target a), Panel.foldl_accept_initFrames]

/-! ### DEINIT and the cosmetic commands (R145, R146) -/

theorem busWrite_of_ok {s : State} (a : Byte) (f : BusFrame) (hev : s.eventAt 0 = .ok) :
    busWrite a f s = .ok (s.afterSent a [f]) := by
  rw [busWrite_eq, hev]

/-- The shared pseudocode of R146, by the lifecycle state and the answer of the transport. -/
theorem cosmetic_outcome (c : PanelCmd) (s : State) :
    (s.life = .uninit → cosmetic c s = .next (s.respond ⟨.illegalState, none⟩)) ∧
    ∀ h, s.life = .ready h →
      (s.eventAt 0 = .ok →
        cosmetic c s = .next ((s.afterSent h.address [.command c]).respond ⟨.ok, none⟩)) ∧
      (s.eventAt 0 = .fail →
        cosmetic c s = .next ((s.dropEvent.record h.address (.command c) .fail).respond
          ⟨cosmeticResult s.cfg, none⟩)) := by
  refine ⟨fun hlife => whenReady_of_uninit hlife _,
    fun h hlife => ⟨fun hev => ?_, fun hev => ?_⟩⟩
  · rw [cosmetic, whenReady_of_ready hlife, busWrite_of_ok _ _ hev, afterBus, complete]
  · rw [cosmetic, whenReady_of_ready hlife, busWrite_of_fail _ _ hev, afterBus, complete]
    rfl

end Sys2Proof.Machine

/-- Settles O29: all fifteen frames are sent, and the handle is the fresh one of the operands. -/
theorem initSucceeds : Obligations.InitSucceeds := by
  intro w h a e s hlife hw hh hcap hok
  exact ⟨_, Sys2Proof.Machine.execInit_of_answered a e hlife hw hh hcap hok, rfl, rfl,
    Sys2Proof.Machine.pagesOf_toNat h, rfl, rfl, rfl, fun _ => rfl⟩

/-- Settles O30: the bus sequence ends at its first failed frame, which is a command frame and no
address frame. -/
theorem initStopsAtFirstFailure : Obligations.InitStopsAtFirstFailure := by
  intro w h a e s k f hlife hw hh hcap hf hok hfail
  exact ⟨_, Sys2Proof.Machine.execInit_of_fail a e hlife hw hh hcap hf hok hfail, hlife, rfl, rfl,
    Sys2Proof.Machine.Panel.lose_initFrame (List.mem_of_getElem? hf) _⟩

/-- Settles O32: the panel has taken the fifteen settings, and then its memory is forgotten. -/
theorem panelAfterInit : Obligations.PanelAfterInit := by
  intro w h a e s hlife hw hh hcap hok
  refine ⟨_, Sys2Proof.Machine.execInit_of_answered a e hlife hw hh hcap hok, ?_⟩
  simp only [Sys2Proof.Machine.State.respond_panel, Sys2Proof.Machine.State.withHandle_panel,
    Sys2Proof.Machine.State.forgetPicture_panel,
    Sys2Proof.Machine.State.afterSent_initFrames_panel]
  exact ⟨s.panel.at_target a, rfl, rfl, rfl, rfl, rfl, fun _ _ => rfl,
    fun x y => Sys2Proof.Machine.Panel.lit_of_unknown rfl x y rfl⟩

/-- Settles O28: a geometry that is not accepted is rejected before any transaction. -/
theorem initRejectsGeometry : Obligations.InitRejectsGeometry :=
  fun _ _ a e _ hlife hbad => Sys2Proof.Machine.execInit_of_rejected a e hlife hbad

/-- Settles O33: whichever way the one transaction is answered, the handle is released. -/
theorem deinitResult : Obligations.DeinitResult := by
  refine fun s => ⟨rfl, rfl, fun hlife => Sys2Proof.Machine.whenReady_of_uninit hlife _,
    fun h hlife => ⟨fun hev => ?_, fun hev => ?_⟩⟩
  · rw [Sys2Proof.Machine.exec, Sys2Proof.Machine.execDeinit,
      Sys2Proof.Machine.whenReady_of_ready hlife, Sys2Proof.Machine.busWrite_of_ok _ _ hev]
    rfl
  · rw [Sys2Proof.Machine.exec, Sys2Proof.Machine.execDeinit,
      Sys2Proof.Machine.whenReady_of_ready hlife, Sys2Proof.Machine.busWrite_of_fail _ _ hev]
    rfl

/-- Settles O34: the four commands are the shared pseudocode of R146 with their own frame. -/
theorem cosmeticResult : Obligations.CosmeticResult := by
  rintro i packet frame c s (⟨rfl, rfl, rfl, rfl⟩ | ⟨rfl, rfl, rfl, rfl⟩ | ⟨v, rfl, rfl, rfl, rfl⟩ |
    ⟨rfl, rfl, rfl, rfl⟩ | ⟨rfl, rfl, rfl, rfl⟩)
  · exact ⟨rfl, rfl, Sys2Proof.Machine.cosmetic_outcome _ s⟩
  · exact ⟨rfl, rfl, Sys2Proof.Machine.cosmetic_outcome _ s⟩
  · exact ⟨rfl, rfl, Sys2Proof.Machine.cosmetic_outcome _ s⟩
  · exact ⟨rfl, rfl, Sys2Proof.Machine.cosmetic_outcome _ s⟩
  · exact ⟨rfl, rfl, Sys2Proof.Machine.cosmetic_outcome _ s⟩

namespace Sys2Proof.Machine

/-! ### Every way a SHOW completes (R171, R173) -/

section
variable {s : State} {h : Handle}

/-- R171, success. -/
theorem exec_showBuf_of_answered (hlife : s.life = .ready h)
    (hok : ∀ k < 2 * h.pages.toNat, s.eventAt k = .ok) :
    exec .showBuf s = .next ((s.afterSent h.address (showFrames h)).respond ⟨.ok, none⟩) :=
  execShow_of_answered hlife hok

/-- R173: the first transaction that fails is the last one sent. -/
theorem exec_showBuf_of_fail {k : Nat} {f : BusFrame} (hlife : s.life = .ready h)
    (hf : (showFrames h)[k]? = some f) (hok : ∀ j < k, s.eventAt j = .ok)
    (hfail : s.eventAt k = .fail) :
    exec .showBuf s = .next
      (((s.afterSent h.address ((showFrames h).take k)).dropEvent.record h.address f .fail).respond
        ⟨.ioFail, none⟩) := by
  rw [exec, execShow, whenReady_of_ready hlife, sendAll_of_fail _ hf hok hfail, afterBus, complete]

end

/-- The three ways a SHOW gives a response: no handle; every transaction answered `ok`; the first
that is not is answered `fail`. The transport's other answers leave it without one. -/
inductive ShowCompletes (s : State) : State → Prop
  | uninit (hlife : s.life = .uninit) : ShowCompletes s (s.respond ⟨.illegalState, none⟩)
  | answered {h : Handle} (hlife : s.life = .ready h)
      (hok : ∀ k < 2 * h.pages.toNat, s.eventAt k = .ok) :
      ShowCompletes s ((s.afterSent h.address (showFrames h)).respond ⟨.ok, none⟩)
  | failed {h : Handle} {k : Nat} {f : BusFrame} (hlife : s.life = .ready h)
      (hf : (showFrames h)[k]? = some f) (hok : ∀ j < k, s.eventAt j = .ok)
      (hfail : s.eventAt k = .fail) :
      ShowCompletes s (((s.afterSent h.address ((showFrames h).take k)).dropEvent.record
        h.address f .fail).respond ⟨.ioFail, none⟩)

theorem execShow_completes (s : State) :
    NextAll (fun t => ShowCompletes s t ∨ t.responses = s.responses) (execShow s) := by
  cases hlife : s.life with
  | uninit =>
    rw [execShow, whenReady_of_uninit hlife]
    exact .inl (.uninit hlife)
  | ready h =>
    rw [execShow, whenReady_of_ready hlife]
    obtain ⟨hok, hend⟩ | ⟨fs1, f, fs2, hfs, hok, hend⟩ := sendAll_cases h.address (showFrames h) s
    · rw [hend]
      exact .inl (.answered hlife (by rwa [← showFrames_length]))
    · have hf : (showFrames h)[fs1.length]? = some f := by simp [hfs]
      have htake : (showFrames h).take fs1.length = fs1 := by simp [hfs]
      obtain ⟨hfail, hend⟩ | ⟨-, hend⟩ | ⟨-, hend⟩ | ⟨-, hend⟩ := hend <;> rw [hend]
      · rw [← htake]
        exact .inl (.failed hlife hf hok hfail)
      · trivial
      · exact .inr rfl
      · exact .inr rfl

theorem ShowCompletes.of_exec {s t : State} {r : Result} (hexec : exec .showBuf s = .next t)
    (hcompleted : s.completedAs t r) : ShowCompletes s t := by
  have hall := execShow_completes s
  rw [show execShow s = .next t from hexec] at hall
  exact hall.resolve_right (State.completedAs.responses_ne hcompleted)

/-- R174. -/
theorem ShowCompletes.life_eq {s t : State} (h : ShowCompletes s t) : t.life = s.life := by
  cases h with
  | uninit | answered | failed => rfl

/-- Another machine with the same handle, wire bytes, transport, responses and `TRACE` answers and
sends the same: SHOW looks at nothing else. -/
theorem ShowCompletes.exec_of_agree {s s' t : State} (h : ShowCompletes s t)
    (hlife : s'.life = s.life) (hevent : s'.eventAt = s.eventAt)
    (hwire : s'.cfg.wire = s.cfg.wire) (hresp : s'.responses = s.responses)
    (htrace : s'.trace = s.trace) :
    ∃ t', exec .showBuf s' = .next t' ∧ t'.responses = t.responses ∧ t'.trace = t.trace := by
  cases h with
  | uninit hs =>
    exact ⟨_, whenReady_of_uninit (hlife.trans hs) _, by simp [hresp], by simp [htrace]⟩
  | answered hs hok =>
    exact ⟨_, exec_showBuf_of_answered (hlife.trans hs) (by rwa [hevent]), by simp [hresp],
      by simp [htrace, hwire]⟩
  | failed hs hf hok hfail =>
    exact ⟨_, exec_showBuf_of_fail (hlife.trans hs) hf (by rwa [hevent]) (by rwa [hevent]),
      by simp [hresp], by simp [htrace, hwire]⟩

/-! ### The buffer that CLEAR leaves, as SHOW sends it (R125, R176) -/

/-- Under the invariant CLEAR lists no byte of the buffer any more. -/
theorem exec_clear_of_inv {s : State} {h : Handle} (hs : s.Inv) (hlife : s.life = .ready h) :
    exec .clear s = .next ((s.withHandle { h with buf := [] }).respond ⟨.ok, none⟩) := by
  obtain ⟨-, -, -, -, -, hwf, hbelow, -⟩ := State.inv_handle hs hlife
  rw [exec_clear_of_ready hlife, zeroBytes_eq_nil hwf hbelow]

end Sys2Proof.Machine

/-- Settles O36: the bus sequence ends with all frames sent. -/
theorem showSucceeds : Obligations.ShowSucceeds :=
  fun _ _ => Sys2Proof.Machine.exec_showBuf_of_answered

/-- Settles O38: the bus sequence ends at its first failed frame, of either kind. -/
theorem showStopsAtFirstFailure : Obligations.ShowStopsAtFirstFailure :=
  fun _ _ _ _ => Sys2Proof.Machine.exec_showBuf_of_fail

/-- Settles O41: none of the three ways a SHOW completes writes the handle, and none depends on the
switch. -/
theorem showNeverWritesHandle : Obligations.ShowNeverWritesHandle := by
  intro s t r hexec hcompleted
  have hshow := Sys2Proof.Machine.ShowCompletes.of_exec hexec hcompleted
  exact ⟨hshow.life_eq, fun b => hshow.exec_of_agree rfl rfl rfl rfl rfl⟩

/-- Settles O42: CLEAR leaves the empty list of bytes, and SHOW's frames then carry zeros alone. -/
theorem showAfterClearSendsZeros : Obligations.ShowAfterClearSendsZeros := by
  intro s h hs hlife hok
  have hclear := Sys2Proof.Machine.exec_clear_of_inv hs hlife
  obtain ⟨u, hshow, hcompleted, htrace⟩ := showFrameSequence
    ((s.withHandle { h with buf := [] }).respond ⟨.ok, none⟩) { h with buf := [] } rfl hok
  refine ⟨_, u, hclear, hshow, ⟨none, rfl⟩, hcompleted, htrace.trans ?_⟩
  simp only [Sys2Proof.Machine.Memory.read_nil, List.map_const', List.length_range]
  rfl

namespace Sys2Proof.Machine

/-! ### What a painting does to the pixels (R182, R184) -/

section
variable {h h' h'' : Handle} {P : Int → Int → Prop}

/-- The bit of a pixel of the screen, by the injectivity of the pixel mapping. -/
theorem Paints.bit_of_onScreen (p : Paints h h' P) {X Y : Int} (hs : h.onScreen X Y) :
    (h'.buf.read (h.idx X Y)).getLsbD (bitOf Y) = true ↔
      (h.buf.read (h.idx X Y)).getLsbD (bitOf Y) = true ∨ P X Y := by
  rw [p.bits]
  refine or_congr_right ⟨?_, fun hP => ⟨X, Y, hs, rfl, rfl, hP⟩⟩
  rintro ⟨x, y, hxy, hi, hb, hP⟩
  obtain ⟨rfl, rfl⟩ := Handle.idx_injective h hxy hs hi hb
  exact hP

theorem Paints.pix_of_onScreen (p : Paints h h' P) {X Y : Int} (hs : h.onScreen X Y) :
    h'.pix X Y = true ↔ h.pix X Y = true ∨ P X Y := by
  rw [Handle.pix_of_onScreen ((p.onScreen X Y).mpr hs), Handle.pix_of_onScreen hs, p.idx]
  exact p.bit_of_onScreen hs

theorem Paints.bit_of_noPixel (p : Paints h h' P) {a b : Nat}
    (hnone : ∀ X Y, h.onScreen X Y → ¬(a = h.idx X Y ∧ b = bitOf Y)) :
    (h'.buf.read a).getLsbD b = (h.buf.read a).getLsbD b := by
  rw [Bool.eq_iff_iff, p.bits]
  refine or_iff_left ?_
  rintro ⟨X, Y, hs, hi, hb, -⟩
  exact hnone X Y hs ⟨hi.symm, hb.symm⟩

theorem Paints.bit_mono (p : Paints h h' P) {a b : Nat}
    (hbit : (h.buf.read a).getLsbD b = true) : (h'.buf.read a).getLsbD b = true :=
  (p.bits a b).mpr (.inl hbit)

theorem Handle.onScreen_of_pix {X Y : Int} (hpix : h.pix X Y = true) : h.onScreen X Y := by
  by_contra hs
  rw [Handle.pix_of_offScreen hs] at hpix
  contradiction

theorem Paints.pix_mono (p : Paints h h' P) {X Y : Int} (hpix : h.pix X Y = true) :
    h'.pix X Y = true :=
  (p.pix_of_onScreen (Handle.onScreen_of_pix hpix)).mpr (.inl hpix)

/-- A pixel that a painting turned on lies on the screen and in the set painted. -/
theorem Paints.of_turnedOn (p : Paints h h' P) {X Y : Int} (hon : h'.pix X Y = true)
    (hoff : h.pix X Y = false) : h.onScreen X Y ∧ P X Y := by
  have hs := (p.onScreen X Y).mp (Handle.onScreen_of_pix hon)
  exact ⟨hs, ((p.pix_of_onScreen hs).mp hon).resolve_left (by simp [hoff])⟩

/-- Painting the same set again changes no bit, and so, under the invariant, not the handle. -/
theorem Paints.repeat_eq {cfg : Config} (p : Paints h h' P) (q : Paints h' h'' P)
    (hinv : h.Inv cfg) : h'' = h' := by
  have hinv' : h'.Inv cfg := p.inv cfg hinv
  obtain ⟨-, -, -, -, -, hwf'', -, -⟩ := q.inv cfg hinv'
  obtain ⟨-, -, -, -, -, hwf', -, -⟩ := hinv'
  have hbuf : h''.buf = h'.buf := Memory.ext hwf'' hwf' fun a =>
    BitVec.eq_of_getLsbD_eq fun b _ => by
      rw [Bool.eq_iff_iff, q.bits]
      refine or_iff_left_of_imp ?_
      rintro ⟨X, Y, hs, hi, hb, hP⟩
      rw [p.onScreen] at hs
      rw [p.idx] at hi
      exact (p.bits a b).mpr (.inr ⟨X, Y, hs, hi, hb, hP⟩)
  rw [q.keeps, hbuf]

/-- The pixel of the screen in bit `b` of the lane of column `x` and page `page` (R52). -/
theorem Handle.idx_eq_lane_iff (hpages : h.pages.toNat = (byteVal h.height + 7) / 8) {X Y : Int}
    (hs : h.onScreen X Y) {x page b : Nat} (hx : x < byteVal h.width) (hb : b < 8) :
    (h.idx X Y = page * byteVal h.width + x ∧ bitOf Y = b) ↔
      X = x ∧ Y = (page * 8 + b : Nat) := by
  constructor
  · rintro ⟨hi, hbit⟩
    obtain ⟨-, hcol, hrow⟩ := Handle.idx_inverse h hs hpages
    rw [hi, Nat.mul_add_mod_of_lt hx] at hcol
    rw [hi, Nat.add_comm, Nat.add_mul_div_right _ _ (by omega), Nat.div_eq_of_lt hx] at hrow
    have hbit : Y.toNat % 8 = b := hbit
    obtain ⟨hX, -, hY, -⟩ := hs
    omega
  · rintro ⟨rfl, rfl⟩
    rw [Handle.idx_natCast]
    have hpage : (page * 8 + b) / 8 = page := by omega
    have hmod : (page * 8 + b) % 8 = b := by omega
    exact ⟨by rw [hpage], hmod⟩

/-- The byte-lane form of a painting (R183): bit `b` of a lane is the pixel in row `page * 8 + b`,
where that row is on the screen, and else it is no pixel. -/
theorem Paints.lane (p : Paints h h' P) (hpages : h.pages.toNat = (byteVal h.height + 7) / 8)
    {x page b : Nat} (hx : x < byteVal h.width) (hb : b < 8) :
    (h'.buf.read (page * byteVal h.width + x)).getLsbD b = true ↔
      (h.buf.read (page * byteVal h.width + x)).getLsbD b = true ∨
        P x ((page * 8 + b : Nat) : Int) ∧ page * 8 + b < byteVal h.height := by
  rw [p.bits]
  refine or_congr_right ⟨?_, fun ⟨hP, hrow⟩ => ?_⟩
  · rintro ⟨X, Y, hs, hi, hbit, hP⟩
    obtain ⟨rfl, rfl⟩ := (Handle.idx_eq_lane_iff hpages hs hx hb).mp ⟨hi, hbit⟩
    exact ⟨hP, (Handle.onScreen_natCast.mp hs).2⟩
  · have hs := Handle.onScreen_natCast.mpr ⟨hx, hrow⟩
    obtain ⟨hi, hbit⟩ := (Handle.idx_eq_lane_iff hpages hs hx hb).mpr ⟨rfl, rfl⟩
    exact ⟨_, _, hs, hi, hbit, hP⟩

end

/-! ### The set painted, in closed form (R182) -/

/-- `X` lies in block number `g` of a row of blocks of length `scale` from `x` on. -/
theorem mem_block_iff_ediv_eq {scale : Nat} (hscale : 1 ≤ scale) (x X : Int) (g : Nat) :
    (x + g * scale ≤ X ∧ X < x + g * scale + scale) ↔ (X - x) / (scale : Int) = g := by
  rw [Int.ediv_eq_iff_of_pos (by omega)]
  exact and_congr (by omega) (by omega)

/-- A block of side 0 has no pixel (R185 b). -/
theorem scale_pos_of_glyphSet {col : List Byte} {scale : Nat} {x y X Y : Int}
    (hg : glyphSet col scale x y X Y) : 1 ≤ scale := by
  obtain ⟨gc, gr, -, -, -, hx, hx', -⟩ := hg
  omega

/-- The blocks that contain `(X, Y)` are found by division: one column and one row. -/
theorem glyphSet_iff {scale : Nat} (hscale : 1 ≤ scale) (col : List Byte) (x y X Y : Int) :
    glyphSet col scale x y X Y ↔
      0 ≤ X - x ∧ (X - x) / (scale : Int) ≤ 4 ∧ 0 ≤ Y - y ∧ (Y - y) / (scale : Int) ≤ 6 ∧
        glyphBit col ((X - x) / (scale : Int)).toNat ((Y - y) / (scale : Int)).toNat = true := by
  have hpos : (0 : Int) < scale := by omega
  rw [← Int.ediv_nonneg_iff_of_pos hpos, ← Int.ediv_nonneg_iff_of_pos (a := Y - y) hpos]
  constructor
  · rintro ⟨gc, gr, hgc, hgr, hbit, hX, hX', hY, hY'⟩
    rw [(mem_block_iff_ediv_eq hscale x X gc).mp ⟨hX, hX'⟩,
      (mem_block_iff_ediv_eq hscale y Y gr).mp ⟨hY, hY'⟩]
    have hgc : gc < 5 := hgc
    have hgr : gr < 7 := hgr
    exact ⟨by omega, by omega, by omega, by omega, hbit⟩
  · rintro ⟨hX, hX', hY, hY', hbit⟩
    obtain ⟨gc, hgc⟩ := Int.eq_ofNat_of_zero_le hX
    obtain ⟨gr, hgr⟩ := Int.eq_ofNat_of_zero_le hY
    obtain ⟨hcol, hcol'⟩ := (mem_block_iff_ediv_eq hscale x X gc).mpr hgc
    obtain ⟨hrow, hrow'⟩ := (mem_block_iff_ediv_eq hscale y Y gr).mpr hgr
    rw [hgc, hgr] at hbit
    refine ⟨gc, gr, ?_, ?_, hbit, hcol, hcol', hrow, hrow'⟩
    · show gc < 5
      omega
    · show gr < 7
      omega

theorem charSet_iff_painted (cfg : Config) (fontSel : Byte) (scale : Nat) (c : Byte)
    (x y X Y : Int) : charSet cfg fontSel scale c x y X Y ↔ painted cfg fontSel x y scale c X Y := by
  constructor
  · rintro ⟨col, hcol, hg⟩
    have hscale := scale_pos_of_glyphSet hg
    exact ⟨hscale, col, hcol, (glyphSet_iff hscale col x y X Y).mp hg⟩
  · rintro ⟨hscale, col, hcol, hg⟩
    exact ⟨col, hcol, (glyphSet_iff hscale col x y X Y).mpr hg⟩

/-- R186: a quotient of at most 4, or 6, is a distance of less than 5, or 7, blocks. -/
theorem painted_inCell {cfg : Config} {fontSel : Byte} {scale : Nat} {c : Byte} {x y X Y : Int}
    (hpainted : painted cfg fontSel x y scale c X Y) : inCell x y scale X Y := by
  obtain ⟨hscale, col, -, hX, hX', hY, hY', -⟩ := hpainted
  have hpos : (0 : Int) < scale := by omega
  have hcol : X - x < 5 * scale := Int.lt_mul_of_ediv_lt hpos (by omega)
  have hrow : Y - y < 7 * scale := Int.lt_mul_of_ediv_lt hpos (by omega)
  exact ⟨by omega, by omega, by omega, by omega⟩

/-- The set that DRAW_STRING paints: each character at its cursor (R188). -/
def stringPainted (cfg : Config) (fontSel : Byte) (x y : Int) (scale : Nat) (str : List Byte)
    (X Y : Int) : Prop :=
  ∃ (i : Nat) (c : Byte), str[i]? = some c ∧
    painted cfg fontSel (x + i * 6 * scale) y scale c X Y

theorem stringPainted_inCell {cfg : Config} {fontSel : Byte} {scale : Nat} {str : List Byte}
    {x y X Y : Int} (hpainted : stringPainted cfg fontSel x y scale str X Y) :
    ∃ i < str.length, inCell (x + i * 6 * scale) y scale X Y := by
  obtain ⟨i, c, hc, hp⟩ := hpainted
  exact ⟨i, (List.getElem?_eq_some_iff.mp hc).1, painted_inCell hp⟩

/-- R190: the cells lie side by side from `x` on, and the last has no gap behind it. -/
theorem bounds_of_inCell {scale i n : Nat} {x y X Y : Int} (hi : i < n)
    (hcell : inCell (x + i * 6 * scale) y scale X Y) :
    x ≤ X ∧ X < x + (6 * (n : Int) - 1) * scale := by
  obtain ⟨hleft, hright, -, -⟩ := hcell
  have hstart : (0 : Int) ≤ i * 6 * scale := by positivity
  have hend : ((i : Int) * 6 + 5) * scale ≤ (6 * (n : Int) - 1) * scale :=
    mul_le_mul_of_nonneg_right (by omega) (by omega)
  constructor
  · omega
  · linarith

/-! ### The drawing commands in `READY` -/

/-- The cursor of the rest of a string is one advance further on (R188). -/
theorem paintString_succ (cfg : Config) (x y : Int) (scale i : Nat) (str : List Byte)
    (h : Handle) :
    paintString cfg x y scale (i + 1) str h
      = paintString cfg (x + advance * scale) y scale i str h := by
  induction str generalizing i h with
  | nil => rfl
  | cons c str ih =>
    have hcursor : x + ((i + 1 : Nat) : Int) * advance * scale
        = x + advance * scale + i * advance * scale := by
      push_cast
      ring
    rw [paintString, paintString, ih, hcursor]

/-- A string is its first character and then the rest from the next cursor (R189 g). -/
theorem paintString_cons (cfg : Config) (x y : Int) (scale : Nat) (c : Byte) (str : List Byte)
    (h : Handle) :
    paintString cfg x y scale 0 (c :: str) h
      = paintString cfg (x + advance * scale) y scale 0 str (paintChar cfg x y scale c h) := by
  rw [paintString, paintString_succ, Nat.cast_zero, zero_mul, zero_mul, add_zero]

theorem Paints.char_painted (cfg : Config) (x y : Int) (scale : Nat) (c : Byte) (h : Handle) :
    Paints h (paintChar cfg x y scale c h) (painted cfg h.fontSel x y scale c) :=
  (Paints.char cfg x y scale c h).congr (charSet_iff_painted cfg h.fontSel scale c x y)

theorem Paints.string_painted (cfg : Config) (x y : Int) (scale : Nat) (str : List Byte)
    (h : Handle) :
    Paints h (paintString cfg x y scale 0 str h) (stringPainted cfg h.fontSel x y scale str) :=
  (Paints.string cfg x y scale 0 str h).congr fun X Y => by
    simp only [charSet_iff_painted, Nat.zero_add]
    rfl

section
variable {s : State} {h : Handle}

theorem exec_drawChar_of_ready (x y : Coord) (scale c : Byte) (hlife : s.life = .ready h) :
    exec (.drawChar x y scale c) s =
      .next ((s.withHandle (paintChar s.cfg x.toInt y.toInt scale.toNat c h)).respond
        ⟨.ok, none⟩) :=
  whenReady_of_ready hlife _

theorem exec_drawString_of_ready (x y : Coord) (scale : Byte) (str : List Byte)
    (hlife : s.life = .ready h) :
    exec (.drawString x y scale str) s =
      .next ((s.withHandle (paintString s.cfg x.toInt y.toInt scale.toNat 0 str h)).respond
        ⟨.ok, none⟩) :=
  whenReady_of_ready hlife _

/-- All that DRAW_CHAR does in `READY`: it answers `OK` and paints the set of R182 into the buffer. -/
theorem exec_drawChar_paints (x y : Coord) (scale c : Byte) (hlife : s.life = .ready h) :
    ∃ m, exec (.drawChar x y scale c) s
        = .next ((s.withHandle { h with buf := m }).respond ⟨.ok, none⟩) ∧
      Paints h { h with buf := m } (painted s.cfg h.fontSel x.toInt y.toInt scale.toNat c) := by
  have p := Paints.char_painted s.cfg x.toInt y.toInt scale.toNat c h
  refine ⟨(paintChar s.cfg x.toInt y.toInt scale.toNat c h).buf, ?_⟩
  rw [← p.keeps]
  exact ⟨exec_drawChar_of_ready x y scale c hlife, p⟩

/-- All that DRAW_STRING does in `READY`. -/
theorem exec_drawString_paints (x y : Coord) (scale : Byte) (str : List Byte)
    (hlife : s.life = .ready h) :
    ∃ m, exec (.drawString x y scale str) s
        = .next ((s.withHandle { h with buf := m }).respond ⟨.ok, none⟩) ∧
      Paints h { h with buf := m }
        (stringPainted s.cfg h.fontSel x.toInt y.toInt scale.toNat str) := by
  have p := Paints.string_painted s.cfg x.toInt y.toInt scale.toNat str h
  refine ⟨(paintString s.cfg x.toInt y.toInt scale.toNat 0 str h).buf, ?_⟩
  rw [← p.keeps]
  exact ⟨exec_drawString_of_ready x y scale str hlife, p⟩

end

end Sys2Proof.Machine

/-- Settles O46: the loops of R181 paint the set of R182, and a painting is exact on the pixels of the
screen and leaves the other bits. -/
theorem drawCharClosedForm : Obligations.DrawCharClosedForm := by
  intro x y scale c s h hlife
  obtain ⟨m, hexec, hpaints⟩ := Sys2Proof.Machine.exec_drawChar_paints x y scale c hlife
  exact ⟨m, hexec, fun _ _ => hpaints.pix_of_onScreen, fun _ _ => hpaints.bit_of_noPixel⟩

/-- Settles O47: a lane's bit is the pixel of its column and row, or below the screen no pixel. -/
theorem drawCharLaneForm : Obligations.DrawCharLaneForm := by
  intro x y scale c s h hs hlife
  obtain ⟨-, -, hpages, -⟩ := Sys2Proof.Machine.State.inv_handle hs hlife
  obtain ⟨m, hexec, hpaints⟩ := Sys2Proof.Machine.exec_drawChar_paints x y scale c hlife
  exact ⟨_, _, hexec, rfl, fun X P b hX _ hb => hpaints.lane hpages hX hb⟩

/-- Settles O48: the second drawing paints the same set, since the first leaves the font
selection. -/
theorem drawCharIdempotentMonotone : Obligations.DrawCharIdempotentMonotone := by
  intro x y scale c s h hs hlife
  have hinv := Sys2Proof.Machine.State.inv_handle hs hlife
  obtain ⟨m, hexec, hpaints⟩ := Sys2Proof.Machine.exec_drawChar_paints x y scale c hlife
  obtain ⟨n, hexec', hpaints'⟩ := Sys2Proof.Machine.exec_drawChar_paints
    (s := (s.withHandle { h with buf := m }).respond ⟨.ok, none⟩) x y scale c rfl
  have hsame := hpaints.repeat_eq hpaints' hinv
  exact ⟨_, _, _, hexec, hexec', congrArg Sys2Proof.Machine.Lifecycle.ready hsame, rfl,
    fun _ _ => hpaints.pix_mono⟩

/-- Settles O49: what is turned on is painted, and what is painted lies in the cell. -/
theorem drawCharStaysInCell : Obligations.DrawCharStaysInCell := by
  intro x y scale c s t h h' hlife hexec hlife' X Y hon hoff
  obtain ⟨m, hexec', hpaints⟩ := Sys2Proof.Machine.exec_drawChar_paints x y scale c hlife
  cases hexec.symm.trans hexec'
  cases hlife'
  obtain ⟨hscreen, hpainted⟩ := hpaints.of_turnedOn hon hoff
  exact ⟨Sys2Proof.Machine.painted_inCell hpainted, hscreen⟩

/-- Settles O51: the loop over the characters paints the union of their sets. -/
theorem drawStringClosedForm : Obligations.DrawStringClosedForm := by
  intro x y scale str s h hlife
  obtain ⟨m, hexec, hpaints⟩ := Sys2Proof.Machine.exec_drawString_paints x y scale str hlife
  exact ⟨m, hexec, fun _ _ => hpaints.pix_of_onScreen, fun _ _ => hpaints.bit_of_noPixel⟩

/-- Settles O52: the rest of the string begins one advance further on, which is `x'`. -/
theorem drawStringIsDrawChars : Obligations.DrawStringIsDrawChars := by
  intro x x' y scale c str s h hlife hcursor
  refine ⟨_, _, _, Sys2Proof.Machine.exec_drawChar_of_ready x y scale c hlife,
    Sys2Proof.Machine.exec_drawString_of_ready x' y scale str rfl,
    Sys2Proof.Machine.exec_drawString_of_ready x y scale (c :: str) hlife, ?_, ?_⟩
  · rw [Sys2Proof.Machine.paintString_cons, hcursor]
    rfl
  · rw [Sys2Proof.Machine.exec_drawString_of_ready x y scale [] hlife,
      Sys2Proof.Machine.paintString, Sys2Proof.Machine.State.withHandle_self hlife]

/-- Settles O53: what is turned on lies in the cell of one character, and the cells of all characters
end before `x + (6*len - 1)*scale`. -/
theorem drawStringFootprint : Obligations.DrawStringFootprint := by
  intro x y scale str s t h h' hlife hexec hlife' X Y hon hoff
  obtain ⟨m, hexec', hpaints⟩ := Sys2Proof.Machine.exec_drawString_paints x y scale str hlife
  cases hexec.symm.trans hexec'
  cases hlife'
  obtain ⟨hscreen, hpainted⟩ := hpaints.of_turnedOn hon hoff
  obtain ⟨i, hi, hcell⟩ := Sys2Proof.Machine.stringPainted_inCell hpainted
  exact ⟨hscreen, ⟨i, hi, hcell⟩, Sys2Proof.Machine.bounds_of_inCell hi hcell⟩

namespace Sys2Proof.Machine

/-! ### SET_FONT (R191) -/

section
variable {s : State} {id : Byte}

theorem exec_setFont_of_wired (hid : byteVal id < s.cfg.nfonts) :
    exec (.setFont id) s =
      whenReady s fun h => complete .ok (s.withHandle { h with fontSel := id }) := if_pos hid

theorem exec_setFont_of_uninit (hid : byteVal id < s.cfg.nfonts) (hlife : s.life = .uninit) :
    exec (.setFont id) s = .next (s.respond ⟨.illegalState, none⟩) := by
  rw [exec_setFont_of_wired hid, whenReady_of_uninit hlife]

theorem exec_setFont_of_ready {h : Handle} (hid : byteVal id < s.cfg.nfonts)
    (hlife : s.life = .ready h) :
    exec (.setFont id) s
      = .next ((s.withHandle { h with fontSel := id }).respond ⟨.ok, none⟩) := by
  rw [exec_setFont_of_wired hid, whenReady_of_ready hlife, complete]

end

end Sys2Proof.Machine

/-- Settles O54: by the check of the font number, then the state check. -/
theorem setFontResult : Obligations.SetFontResult :=
  fun _ _ => ⟨rfl, Sys2Proof.Machine.execSetFont_of_unwired,
    Sys2Proof.Machine.exec_setFont_of_uninit, fun _ => Sys2Proof.Machine.exec_setFont_of_ready⟩

namespace Sys2Proof.Machine

/-! ### The frame of the rasterizer family (R180) -/

/-- The drawing commands of the rasterizer (`spec/43_glyph_rasterizer.md`). -/
def DrawingCommand (i : Instr) : Prop :=
  (∃ x y sc c, i = .drawChar x y sc c) ∨ ∃ x y sc str, i = .drawString x y sc str

theorem DrawingCommand.ne_setFont {i : Instr} (hi : DrawingCommand i) (id : Byte) :
    i ≠ .setFont id := by
  obtain ⟨x, y, sc, c, rfl⟩ | ⟨x, y, sc, str, rfl⟩ := hi
  · nofun
  · nofun

theorem DrawingCommand.exec_of_uninit {i : Instr} {s : State} (hi : DrawingCommand i)
    (hlife : s.life = .uninit) : exec i s = .next (s.respond ⟨.illegalState, none⟩) := by
  obtain ⟨x, y, sc, c, rfl⟩ | ⟨x, y, sc, str, rfl⟩ := hi
  · exact whenReady_of_uninit hlife _
  · exact whenReady_of_uninit hlife _

/-- Everything a drawing command does in `READY`: a painting into the buffer, and the answer `OK`. -/
theorem DrawingCommand.exec_paints {i : Instr} {s : State} {h : Handle} (hi : DrawingCommand i)
    (hlife : s.life = .ready h) :
    ∃ m P, exec i s = .next ((s.withHandle { h with buf := m }).respond ⟨.ok, none⟩) ∧
      Paints h { h with buf := m } P := by
  obtain ⟨x, y, sc, c, rfl⟩ | ⟨x, y, sc, str, rfl⟩ := hi
  · obtain ⟨m, hexec, hpaints⟩ := exec_drawChar_paints x y sc c hlife
    exact ⟨m, _, hexec, hpaints⟩
  · obtain ⟨m, hexec, hpaints⟩ := exec_drawString_paints x y sc str hlife
    exact ⟨m, _, hexec, hpaints⟩

theorem exec_setFont_responds {s : State} (id : Byte) (hlife : s.life = .uninit) :
    ∃ r, exec (.setFont id) s = .next (s.respond r) := by
  by_cases hid : byteVal id < s.cfg.nfonts
  · exact ⟨_, exec_setFont_of_uninit hid hlife⟩
  · exact ⟨_, execSetFont_of_unwired (not_lt.mp hid)⟩

/-- Everything SET_FONT does in `READY`: a font selection, the new or the old one, and a response. -/
theorem exec_setFont_selects {s : State} {h : Handle} (id : Byte) (hlife : s.life = .ready h) :
    ∃ f r, exec (.setFont id) s = .next ((s.withHandle { h with fontSel := f }).respond r) ∧
      (byteVal id < s.cfg.nfonts → r = ⟨.ok, none⟩) := by
  by_cases hid : byteVal id < s.cfg.nfonts
  · exact ⟨id, _, exec_setFont_of_ready hid hlife, fun _ => rfl⟩
  · refine ⟨h.fontSel, ⟨.illegalCommand, none⟩, ?_, fun hlt => absurd hlt hid⟩
    rw [State.withHandle_self hlife]
    exact execSetFont_of_unwired (not_lt.mp hid)

end Sys2Proof.Machine

/-- Settles O55: each command of the family delivers a response and changes at most the handle's
buffer, by a painting, or its font selection. -/
theorem rasterFamilyFrame : Obligations.RasterFamilyFrame := by
  intro i s hi
  obtain hdraw | ⟨id, rfl⟩ : Sys2Proof.Machine.DrawingCommand i ∨ ∃ id, i = .setFont id :=
    or_assoc.mpr hi
  · cases hlife : s.life with
    | uninit =>
      exact ⟨_, hdraw.exec_of_uninit hlife, rfl, rfl, rfl, rfl, rfl, rfl, fun _ => hlife, nofun⟩
    | ready h =>
      obtain ⟨m, P, hexec, hpaints⟩ := hdraw.exec_paints hlife
      refine ⟨_, hexec, rfl, rfl, rfl, rfl, rfl, rfl, nofun, ?_⟩
      rintro _ ⟨⟩
      exact ⟨_, rfl, fun id hid => absurd hid (hdraw.ne_setFont id),
        fun _ => ⟨⟨none, rfl⟩, rfl, fun _ _ => hpaints.bit_mono⟩⟩
  · cases hlife : s.life with
    | uninit =>
      obtain ⟨r, hexec⟩ := Sys2Proof.Machine.exec_setFont_responds id hlife
      exact ⟨_, hexec, rfl, rfl, rfl, rfl, rfl, rfl, fun _ => hlife, nofun⟩
    | ready h =>
      obtain ⟨f, r, hexec, hok⟩ := Sys2Proof.Machine.exec_setFont_selects id hlife
      refine ⟨_, hexec, rfl, rfl, rfl, rfl, rfl, rfl, nofun, ?_⟩
      rintro _ ⟨⟩
      refine ⟨_, rfl, ?_, fun hne => absurd rfl (hne id)⟩
      rintro _ ⟨⟩
      exact ⟨rfl, fun hid => ⟨none, by rw [hok hid]; rfl⟩⟩

namespace Sys2Proof.Machine

/-! ### The first two checks of R209 -/

/-- SET_FONT of a font that is not wired, which check 1 refuses (R86 d; log 15). -/
def UnwiredFont (cfg : Config) (i : Instr) : Prop :=
  ∃ id, i = .setFont id ∧ cfg.nfonts ≤ byteVal id

/-- Check 2: the command is not allowed in the lifecycle state (R204). -/
def StateForbids (l : Lifecycle) (i : Instr) : Prop :=
  (l = .uninit ∧ ∀ w h a e, i ≠ .init w h a e) ∨
    ((∃ h, l = .ready h) ∧ ∃ w h a e, i = .init w h a e)

theorem legal_iff (i : Instr) (cfg : Config) :
    i.legal cfg.nfonts = true ↔ i.wf = true ∧ ¬UnwiredFont cfg i := by
  cases i with
  | setFont id => simp [Instr.legal, UnwiredFont]
  | setPixel | getPixel | clear | init | deinit | powerOn | powerOff | contrast | invert | showBuf
  | drawChar | drawString => simp [Instr.legal, UnwiredFont]

/-- A command that has a packet can be illegal by R86 (d) only. -/
theorem legal_eq_false_iff {i : Instr} (hwf : i.wf = true) (cfg : Config) :
    i.legal cfg.nfonts = false ↔ UnwiredFont cfg i := by
  rw [← Bool.not_eq_true, legal_iff, hwf, eq_self, true_and, not_not]

theorem exec_of_unwiredFont {i : Instr} {s : State} (hfont : UnwiredFont s.cfg i) :
    exec i s = .next (s.respond ⟨.illegalCommand, none⟩) := by
  obtain ⟨id, rfl, hid⟩ := hfont
  exact execSetFont_of_unwired hid

theorem exec_of_uninit {i : Instr} {s : State} (hfont : ¬UnwiredFont s.cfg i)
    (hinit : ∀ w h a e, i ≠ .init w h a e) (hlife : s.life = .uninit) :
    ∃ v, exec i s = .next (s.respond ⟨.illegalState, v⟩) := by
  cases i with
  | init w h a e => exact absurd rfl (hinit w h a e)
  | getPixel x y => exact ⟨_, exec_getPixel_of_uninit x y hlife⟩
  | setFont id =>
    have hwired : byteVal id < s.cfg.nfonts := not_le.mp fun hid => hfont ⟨id, rfl, hid⟩
    exact ⟨_, exec_setFont_of_uninit hwired hlife⟩
  | setPixel | clear | deinit | powerOn | powerOff | contrast | invert | showBuf | drawChar
  | drawString => exact ⟨_, whenReady_of_uninit hlife _⟩

theorem exec_init_of_ready {s : State} {hd : Handle} (w h a : Byte) (e : Bool)
    (hlife : s.life = .ready hd) :
    exec (.init w h a e) s = .next (s.respond ⟨.illegalState, none⟩) := by
  rw [exec, execInit, hlife, complete]

theorem exec_of_stateForbids {i : Instr} {s : State} (hfont : ¬UnwiredFont s.cfg i)
    (hstate : StateForbids s.life i) :
    ∃ v, exec i s = .next (s.respond ⟨.illegalState, v⟩) := by
  obtain ⟨hlife, hinit⟩ | ⟨⟨hd, hlife⟩, w, h, a, e, rfl⟩ := hstate
  · exact exec_of_uninit hfont hinit hlife
  · exact ⟨none, exec_init_of_ready w h a e hlife⟩

/-! ### What a command that passes both checks can answer (R206) -/

/-- The commands that report a failed transaction under `SURFACE_COSMETIC_ERRORS` only (R145, R146). -/
def ControlCommand (i : Instr) : Prop :=
  i = .deinit ∨ i = .powerOn ∨ i = .powerOff ∨ (∃ v, i = .contrast v) ∨ ∃ f, i = .invert f

/-- The command can complete with `IO_FAIL` (R201). -/
def MayIoFail (cfg : Config) (i : Instr) : Prop :=
  (∃ w h a e, i = .init w h a e) ∨ i = .showBuf ∨
    (cfg.surfaceCosmeticErrors = true ∧ ControlCommand i)

/-- The results left to a command that passes both checks. -/
def AcceptedResult (i : Instr) (s : State) : Result → Prop
  | .ok => True
  | .ioFail => MayIoFail s.cfg i
  | .invalidGeometry => s.life = .uninit ∧ ∃ w h a e, i = .init w h a e
  | .illegalState | .illegalCommand => False

/-- From `s` to `t` a command was abandoned by a reset without a response (R230; log 9), or gave one
response, whose result meets `P`. -/
def Concludes (P : Result → Prop) (s t : State) : Prop :=
  (t.responses = s.responses ∧ t.life = .uninit ∧ t.trace = []) ∨
    ∃ r : Response, t.responses = s.responses ++ [r] ∧ P r.result

section
variable {P : Result → Prop} {s t : State}

theorem complete_concludes {r : Result} (h : t.responses = s.responses) (hr : P r) :
    NextAll (Concludes P s) (complete r t) :=
  nextAll_complete (.inr ⟨⟨r, none⟩, by rw [State.respond_responses, h], hr⟩)

theorem nextAll_whenReady_of_ready {Q : State → Prop} {h : Handle} {body : Handle → Outcome}
    (hlife : s.life = .ready h) (hbody : NextAll Q (body h)) : NextAll Q (whenReady s body) := by
  rwa [whenReady_of_ready hlife]

/-- Transactions give no response and keep the parameters, and a reset among them abandons the
command. -/
theorem afterBus_concludes {a : Byte} {fs : List BusFrame} {onOk onFail : State → Outcome}
    (hok : ∀ t, t.responses = s.responses → NextAll (Concludes P s) (onOk t))
    (hfail : ∀ t, t.responses = s.responses → t.cfg = s.cfg →
      NextAll (Concludes P s) (onFail t)) :
    NextAll (Concludes P s) (afterBus (sendAll a fs s) onOk onFail) := by
  obtain ⟨-, hend⟩ | ⟨fs1, f, fs2, -, -, ⟨-, hend⟩ | ⟨-, hend⟩ | ⟨-, hend⟩ | ⟨-, hend⟩⟩ :=
    sendAll_cases a fs s <;> rw [hend]
  · exact hok _ rfl
  · exact hfail _ rfl rfl
  · trivial
  · exact .inl ⟨rfl, rfl, rfl⟩
  · exact .inl ⟨rfl, rfl, rfl⟩

end

section
variable {i : Instr} {s : State} {h : Handle}

theorem acceptedResult_cosmeticResult {cfg : Config} (hi : ControlCommand i) (hcfg : cfg = s.cfg) :
    AcceptedResult i s (cosmeticResult cfg) := by
  subst hcfg
  unfold cosmeticResult
  split_ifs with hswitch
  · exact .inr (.inr ⟨hswitch, hi⟩)
  · trivial

theorem cosmetic_concludes (c : PanelCmd) (hi : ControlCommand i) (hlife : s.life = .ready h) :
    NextAll (Concludes (AcceptedResult i s) s) (cosmetic c s) := by
  refine nextAll_whenReady_of_ready hlife ?_
  rw [busWrite_eq_sendAll]
  exact afterBus_concludes (fun _ ht => complete_concludes ht trivial)
    (fun _ ht hcfg => complete_concludes ht (acceptedResult_cosmeticResult hi hcfg))

theorem execDeinit_concludes (hlife : s.life = .ready h) :
    NextAll (Concludes (AcceptedResult .deinit s) s) (execDeinit s) := by
  refine nextAll_whenReady_of_ready hlife ?_
  rw [busWrite_eq_sendAll]
  exact afterBus_concludes (fun t ht => complete_concludes (t := t.release) ht trivial)
    (fun t ht hcfg =>
      complete_concludes (t := t.release) ht (acceptedResult_cosmeticResult (.inl rfl) hcfg))

theorem execShow_concludes (hlife : s.life = .ready h) :
    NextAll (Concludes (AcceptedResult .showBuf s) s) (execShow s) :=
  nextAll_whenReady_of_ready hlife <|
    afterBus_concludes (fun _ ht => complete_concludes ht trivial)
      (fun _ ht _ => complete_concludes ht (.inr (.inl rfl)))

theorem execInit_concludes (width height a : Byte) (e : Bool) (hlife : s.life = .uninit) :
    NextAll (Concludes (AcceptedResult (.init width height a e) s) s)
      (execInit width height a e s) := by
  have hgeometry : AcceptedResult (.init width height a e) s .invalidGeometry :=
    ⟨hlife, width, height, a, e, rfl⟩
  rw [execInit, hlife]
  dsimp only
  split_ifs
  · exact complete_concludes rfl hgeometry
  · exact complete_concludes rfl hgeometry
  · exact afterBus_concludes
      (fun t ht => complete_concludes
        (t := t.forgetPicture.withHandle (freshHandle width height a e)) ht trivial)
      (fun _ ht _ => complete_concludes ht (.inl ⟨width, height, a, e, rfl⟩))

theorem exec_concludes_of_ready (hfont : ¬UnwiredFont s.cfg i)
    (hinit : ∀ w h a e, i ≠ .init w h a e) (hlife : s.life = .ready h) :
    NextAll (Concludes (AcceptedResult i s) s) (exec i s) := by
  cases i with
  | setPixel | clear | drawChar | drawString =>
    exact nextAll_whenReady_of_ready hlife (complete_concludes rfl trivial)
  | getPixel x y =>
    rw [exec_getPixel_of_ready x y hlife]
    exact .inr ⟨_, rfl, trivial⟩
  | init w h a e => exact absurd rfl (hinit w h a e)
  | deinit => exact execDeinit_concludes hlife
  | powerOn | powerOff | contrast | invert =>
    exact cosmetic_concludes _ (by simp [ControlCommand]) hlife
  | showBuf => exact execShow_concludes hlife
  | setFont id =>
    rw [exec_setFont_of_ready (not_le.mp fun hid => hfont ⟨id, rfl, hid⟩) hlife]
    exact .inr ⟨_, rfl, trivial⟩

theorem exec_concludes_of_accepted (hfont : ¬UnwiredFont s.cfg i)
    (hstate : ¬StateForbids s.life i) : NextAll (Concludes (AcceptedResult i s) s) (exec i s) := by
  obtain ⟨hnotUninit, hnotReady⟩ := not_or.mp hstate
  cases hlife : s.life with
  | ready h =>
    exact exec_concludes_of_ready hfont
      (fun width height a e hi => hnotReady ⟨⟨h, hlife⟩, width, height, a, e, hi⟩) hlife
  | uninit =>
    have hinit : ∃ w h a e, i = .init w h a e := by
      by_contra hne
      exact hnotUninit ⟨hlife, fun w h a e hi => hne ⟨w, h, a, e, hi⟩⟩
    obtain ⟨w, h, a, e, rfl⟩ := hinit
    exact execInit_concludes w h a e hlife

end

/-- What a command can come to, by the first check of R209 that it does not pass. -/
theorem exec_cases (i : Instr) (s : State) :
    (UnwiredFont s.cfg i ∧ exec i s = .next (s.respond ⟨.illegalCommand, none⟩)) ∨
    (¬UnwiredFont s.cfg i ∧ StateForbids s.life i ∧
      ∃ v, exec i s = .next (s.respond ⟨.illegalState, v⟩)) ∨
    (¬UnwiredFont s.cfg i ∧ ¬StateForbids s.life i ∧
      NextAll (Concludes (AcceptedResult i s) s) (exec i s)) := by
  by_cases hfont : UnwiredFont s.cfg i
  · exact .inl ⟨hfont, exec_of_unwiredFont hfont⟩
  · by_cases hstate : StateForbids s.life i
    · exact .inr (.inl ⟨hfont, hstate, exec_of_stateForbids hfont hstate⟩)
    · exact .inr (.inr ⟨hfont, hstate, exec_concludes_of_accepted hfont hstate⟩)

/-! ### The table of R206 -/

/-- The rows of R206 for the result `r` of the command `i` run in `s`. -/
structure TableRow (i : Instr) (s : State) (r : Result) : Prop where
  ioFail : r = .ioFail → MayIoFail s.cfg i
  invalidGeometry : r = .invalidGeometry → s.life = .uninit ∧ ∃ w h a e, i = .init w h a e
  illegalState : r = .illegalState ↔ StateForbids s.life i ∧ ¬UnwiredFont s.cfg i
  illegalCommand : r = .illegalCommand ↔ UnwiredFont s.cfg i

theorem AcceptedResult.tableRow {i : Instr} {s : State} {r : Result} (hr : AcceptedResult i s r)
    (hfont : ¬UnwiredFont s.cfg i) (hstate : ¬StateForbids s.life i) : TableRow i s r where
  ioFail := by rintro rfl; exact hr
  invalidGeometry := by rintro rfl; exact hr
  illegalState := iff_of_false (by rintro rfl; exact hr) fun h => hstate h.1
  illegalCommand := iff_of_false (by rintro rfl; exact hr) hfont

theorem exec_tableRow (i : Instr) (s : State) : NextAll (Concludes (TableRow i s) s) (exec i s) := by
  obtain ⟨hfont, hexec⟩ | ⟨hfont, hstate, v, hexec⟩ | ⟨hfont, hstate, hconcludes⟩ := exec_cases i s
  · rw [hexec]
    exact .inr ⟨_, rfl, nofun, nofun, iff_of_false nofun fun h => h.2 hfont, iff_of_true rfl hfont⟩
  · rw [hexec]
    exact .inr ⟨_, rfl, nofun, nofun, iff_of_true rfl ⟨hstate, hfont⟩, iff_of_false nofun hfont⟩
  · exact hconcludes.mono fun _ => Or.imp_right fun ⟨r, ht, hr⟩ =>
      ⟨r, ht, hr.tableRow hfont hstate⟩

/-- R204 as the table of R206 has it, check 1 of R209 coming first. -/
theorem stateForbids_and_not_unwiredFont_iff (i : Instr) (s : State) :
    StateForbids s.life i ∧ ¬UnwiredFont s.cfg i ↔
      ((∃ h, s.life = .ready h) ∧ ∃ w h a e, i = .init w h a e) ∨
        (s.life = .uninit ∧ (∀ w h a e, i ≠ .init w h a e) ∧
          ∀ id, i = .setFont id → id.toNat < s.cfg.nfonts) := by
  have hwired : ¬UnwiredFont s.cfg i ↔ ∀ id, i = .setFont id → id.toNat < s.cfg.nfonts := by
    simp [UnwiredFont]
  rw [← hwired]
  constructor
  · rintro ⟨⟨hlife, hinit⟩ | hready, hfont⟩
    · exact .inr ⟨hlife, hinit, hfont⟩
    · exact .inl hready
  · rintro (⟨hlife, w, h, a, e, rfl⟩ | ⟨hlife, hinit, hfont⟩)
    · exact ⟨.inr ⟨hlife, w, h, a, e, rfl⟩, fun ⟨_, hi, _⟩ => nomatch hi⟩
    · exact ⟨.inl ⟨hlife, hinit⟩, hfont⟩

end Sys2Proof.Machine

/-- Settles O19: by the first check of R209 that the command does not pass, and for a command that
passes them by the ends of its transactions. -/
theorem resultTable : Obligations.ResultTable := by
  intro i s t hexec
  have hconcludes := Sys2Proof.Machine.exec_tableRow i s
  rw [hexec] at hconcludes
  refine hconcludes.imp_right fun ⟨r, ht, hrow⟩ =>
    ⟨r, ht, hrow.ioFail, hrow.invalidGeometry, ?_, hrow.illegalCommand⟩
  exact hrow.illegalState.trans
    (Sys2Proof.Machine.stateForbids_and_not_unwiredFont_iff i s)

namespace Sys2Proof.Machine

/-! ### The mark of a run that went wrong (R221) -/

theorem State.goneWrong_of_responses_eq {s t : State} (h : t.responses = s.responses) :
    t.goneWrong = s.goneWrong := by
  rw [State.goneWrong, h, State.goneWrong]

/-- A response marks the run by its result alone. -/
theorem State.goneWrong_of_response {s t : State} {r : Response} (hs : s.goneWrong = false)
    (ht : t.responses = s.responses ++ [r]) :
    t.goneWrong = true ↔ r.result = .illegalState ∨ r.result = .illegalCommand := by
  have hany : t.goneWrong = (s.goneWrong ||
      decide (r.result = .illegalState ∨ r.result = .illegalCommand)) := by
    simp [State.goneWrong, ht]
  rw [hany, hs, Bool.false_or, decide_eq_true_iff]

theorem illegalPacketResponse_result (e : IllegalPacket) :
    (illegalPacketResponse e).result = .illegalCommand := by
  cases e with
  | emptyPacket | unknownOpcode => rfl
  | wrongLength op => cases op <;> rfl

theorem AcceptedResult.not_illegal {i : Instr} {s : State} {r : Result}
    (hr : AcceptedResult i s r) : ¬(r = .illegalState ∨ r = .illegalCommand) := by
  rintro (rfl | rfl)
  · exact hr
  · exact hr

/-- An abandoned command gave no response, and of the responses given those of the first two checks
are the ones that mark the run. -/
theorem exec_goneWrong_iff {i : Instr} {s t : State} (hs : s.goneWrong = false)
    (hexec : exec i s = .next t) :
    t.goneWrong = true ↔ UnwiredFont s.cfg i ∨ StateForbids s.life i := by
  obtain ⟨hfont, hnext⟩ | ⟨-, hstate, v, hnext⟩ | ⟨hfont, hstate, hconcludes⟩ := exec_cases i s
  · cases hexec.symm.trans hnext
    exact iff_of_true ((State.goneWrong_of_response hs rfl).mpr (.inr rfl)) (.inl hfont)
  · cases hexec.symm.trans hnext
    exact iff_of_true ((State.goneWrong_of_response hs rfl).mpr (.inl rfl)) (.inr hstate)
  · rw [hexec] at hconcludes
    refine iff_of_false ?_ (not_or.mpr ⟨hfont, hstate⟩)
    obtain ⟨hnone, -, -⟩ | ⟨r, hone, hr⟩ := hconcludes
    · rw [State.goneWrong_of_responses_eq hnone, hs]
      exact Bool.false_ne_true
    · rw [State.goneWrong_of_response hs hone]
      exact hr.not_illegal

end Sys2Proof.Machine

/-- Settles O21: a packet that does not decode is answered with `ILLEGAL_COMMAND`, and a command that
decodes marks the run where one of the first two checks of R209 refuses it. -/
theorem goesWrongExactlyOnMisuse : Obligations.GoesWrongExactlyOnMisuse := by
  intro s t p rest hin hs hstep
  rw [Sys2Proof.Machine.step_of_packet hin] at hstep
  cases hdec : Sys2Proof.decode p with
  | error e =>
    rw [Sys2Proof.Machine.runPacket_of_error hdec] at hstep
    cases hstep
    exact iff_of_true ((Sys2Proof.Machine.State.goneWrong_of_response hs rfl).mpr
      (.inr (Sys2Proof.Machine.illegalPacketResponse_result e))) (.inl nofun)
  | ok i =>
    rw [Sys2Proof.Machine.runPacket_of_decode hdec] at hstep
    obtain ⟨hwf, -, -⟩ := encodeOfDecodeRestoresPacket p i hdec
    rw [Sys2Proof.Machine.exec_goneWrong_iff (s := { s with inputs := rest }) hs hstep,
      ← Sys2Proof.Machine.legal_eq_false_iff hwf]
    constructor
    · exact fun hmisuse => .inr ⟨i, rfl, hmisuse⟩
    · rintro (hillegal | ⟨_, ⟨⟩, hmisuse⟩)
      · exact absurd rfl (hillegal i)
      · exact hmisuse

/-- Settles O17: a legal command passes check 1 of R209, and check 2 answers it. -/
theorem illegalStateHasNoEffect : Obligations.IllegalStateHasNoEffect := by
  intro i s hlegal
  obtain ⟨-, hfont⟩ := (Sys2Proof.Machine.legal_iff i s.cfg).mp hlegal
  refine ⟨?_, ?_⟩
  · exact Sys2Proof.Machine.exec_of_uninit hfont
  · rintro w h a e hd rfl
    exact Sys2Proof.Machine.exec_init_of_ready w h a e

/-- Settles O18: each check of R209 answers whatever the later ones would find. -/
theorem checkOrder : Obligations.CheckOrder :=
  ⟨fun _ id hid _ => Sys2Proof.Machine.exec_of_unwiredFont ⟨id, rfl, hid⟩,
    fun _ _ w h a e hlife _ => Sys2Proof.Machine.exec_init_of_ready w h a e hlife,
    fun _ _ _ a e _ hlife hzero =>
      Sys2Proof.Machine.execInit_of_rejected a e hlife (hzero.elim .inl (.inr ∘ .inl))⟩

namespace Sys2Proof.Machine

/-! ### A command that a reset abandons with its work done (R230) -/

theorem step_of_decode_thenReset {s t : State} {p : List Byte} {rest : List Input} {i : Instr}
    (hin : s.inputs = .packetThenReset p :: rest) (hdec : decode p = .ok i)
    (hexec : exec i { s with inputs := rest } = .next t) :
    step s = .next (t.abandon s.responses) := by
  rw [step_of_packetThenReset hin]
  exact runThenReset_next ((runPacket_of_decode hdec _).trans hexec)

/-- The answer to an illegal packet is all that the packet does, and the reset drops it. -/
theorem step_of_illegal_thenReset {s : State} {p : List Byte} {rest : List Input}
    {e : IllegalPacket} (hin : s.inputs = .packetThenReset p :: rest)
    (hdec : decode p = .error e) :
    step s = .next ({ s with inputs := rest } : State).hardReset := by
  rw [step_of_packetThenReset hin]
  exact runThenReset_next (runPacket_of_error hdec _)

/-! ### The panel after all frames of a SHOW (R219) -/

/-- Of a panel that is not the target's nothing is known, so a known byte is the described panel's. -/
theorem Panel.devByte_of_at {d : Panel} {a v : Byte} {p x : Nat}
    (h : (d.at a).devByte p x = some v) : d.devByte p x = some v := by
  by_cases htarget : d.target = some a
  · rwa [Panel.at_same htarget] at h
  · rw [Panel.at, if_neg htarget] at h
    cases h

/-- After the frames of every page the panel's memory holds the buffer. -/
theorem panelAfter_showFrames_devByte (wire : Wire) {h : Handle} (d : Panel)
    (hw : 1 ≤ byteVal h.width) {p x : Nat} (hp : p < h.pages.toNat) (hx : x < byteVal h.width) :
    (panelAfter wire h (showFrames h) d).devByte p x
      = some (h.buf.read (p * byteVal h.width + x)) := by
  have hpages : h.pages.toNat ≤ 256 := by
    have := h.pages.isLt
    omega
  have hx256 : x < 256 := hx.trans h.width.isLt
  have hbyte := panelAfter_framesBefore_devByte wire h d hw hpages p hx256
  rw [if_pos ⟨hp, hx⟩] at hbyte
  exact Panel.devByte_of_at hbyte

end Sys2Proof.Machine

/-- Settles O12: SHOW has sent the frames of every page when the reset comes, and the reset leaves the
panel. -/
theorem resetAfterShowKeepsPanel : Obligations.ResetAfterShowKeepsPanel := by
  intro s h rest hinv hlife hin hok
  obtain ⟨hw, -⟩ := Sys2Proof.Machine.State.inv_handle hinv hlife
  have hshow := Sys2Proof.Machine.exec_showBuf_of_answered (s := { s with inputs := rest }) hlife hok
  have hdec : Sys2Proof.decode [0x20] = .ok .showBuf := rfl
  exact ⟨_, Sys2Proof.Machine.step_of_decode_thenReset hin hdec hshow, rfl, rfl, fun p hp x hx =>
    Sys2Proof.Machine.panelAfter_showFrames_devByte s.cfg.wire s.panel hw hp hx⟩

/-- Settles O11: where the command answers, the reset drops its response and keeps the rest, and an
illegal packet does nothing but answer. -/
theorem resetBeforeResponse : Obligations.ResetBeforeResponse := by
  intro s p rest hin
  refine ⟨fun i t => Sys2Proof.Machine.step_of_decode_thenReset hin, fun hillegal => ?_⟩
  cases hdec : Sys2Proof.decode p with
  | ok i => exact absurd hdec (hillegal i)
  | error e => exact Sys2Proof.Machine.step_of_illegal_thenReset hin hdec

/-- Settles O9: a reset at the command port is the step's own case, and it changes the lifecycle state
and `TRACE` alone. -/
theorem resetInputLeavesUninit : Obligations.ResetInputLeavesUninit :=
  fun _ _ => Sys2Proof.Machine.step_of_reset

namespace Sys2Proof

/-! ### The parameters of the machine after reset (R93, R100; log 3) -/

/-- R93: whatever the free bytes are, the two control bytes differ. -/
theorem Wire.separated_ctrlCmd_ne_ctrlData (w : Wire) :
    w.separated.ctrlCmd ≠ w.separated.ctrlData := by
  unfold Wire.separated
  split_ifs with hsame
  · change w.ctrlCmd ≠ ~~~ w.ctrlCmd
    bv_omega
  · exact hsame

/-- R100: whatever the free table is, its bounds are in order and its data has their length. -/
theorem FontTable.fitted_wf (f : FontTable) : f.fitted.wf := by
  refine ⟨?_, by simp [FontTable.fitted, FontTable.size]⟩
  dsimp only [FontTable.fitted]
  split_ifs <;> omega

theorem Config.installed_wf : Config.installed.wf := by
  refine ⟨Config.freeWire.separated_ctrlCmd_ne_ctrlData, fun f hf => ?_⟩
  obtain rfl | hmore := List.mem_cons.mp hf
  · exact Config.freeFont.fitted_wf
  · obtain ⟨g, -, rfl⟩ := List.mem_map.mp hmore
    exact g.fitted_wf

end Sys2Proof

/-- Settles O14: the parameters are fitted to the document's limits, and there is no handle and no known
byte of the panel. -/
theorem invariantAtReset : Obligations.InvariantAtReset :=
  ⟨Sys2Proof.Config.installed_wf, trivial, List.Pairwise.nil⟩

namespace Sys2Proof.Machine

/-! ### A reset before or during a transaction (R230, U12) -/

/-- A reset at transaction `k` from `s` has left the block in `t`, with no response; where it cut the
transaction, no value of the panel is known. -/
def AbandonedAt (k : Nat) (s t : State) : Prop :=
  t.life = .uninit ∧ t.trace = [] ∧ t.responses = s.responses ∧ t.cfg = s.cfg ∧
    t.inputs = s.inputs ∧ (s.eventAt k = .resetDuring → t.panel = Panel.unknown)

theorem sendAll_of_reset {s : State} (a : Byte) {fs : List BusFrame} {k : Nat} (hk : k < fs.length)
    (hok : ∀ j < k, s.eventAt j = .ok)
    (hreset : s.eventAt k = .resetDuring ∨ s.eventAt k = .resetBefore) :
    ∃ t, sendAll a fs s = .reset t ∧ AbandonedAt k s t := by
  have hlen : (fs.take k).length = k := List.length_take_of_le hk.le
  have hsplit : fs = fs.take k ++ fs[k] :: fs.drop (k + 1) := by simp
  have hend := sendAll_at a (fs.take k) fs[k] (fs.drop (k + 1)) s (by rwa [hlen])
  rw [← hsplit, hlen] at hend
  obtain hcut | hbefore := hreset
  · rw [hcut] at hend
    exact ⟨_, hend, rfl, rfl, rfl, rfl, rfl, fun _ => rfl⟩
  · rw [hbefore] at hend
    exact ⟨_, hend, rfl, rfl, rfl, rfl, rfl, fun hcut => nomatch hbefore.symm.trans hcut⟩

/-- From `s` the command sends `n` frames, and its outcome is what follows them. -/
def RunsFrames (n : Nat) (s : State) (o : Outcome) : Prop :=
  ∃ a fs onOk onFail, fs.length = n ∧ o = afterBus (sendAll a fs s) onOk onFail

theorem RunsFrames.abandoned_of_reset {n k : Nat} {s : State} {o : Outcome} (h : RunsFrames n s o)
    (hk : k < n) (hok : ∀ j < k, s.eventAt j = .ok)
    (hreset : s.eventAt k = .resetDuring ∨ s.eventAt k = .resetBefore) :
    ∃ t, o = .next t ∧ AbandonedAt k s t := by
  obtain ⟨a, fs, onOk, onFail, rfl, rfl⟩ := h
  obtain ⟨t, hsend, habandoned⟩ := sendAll_of_reset a hk hok hreset
  exact ⟨t, by rw [hsend, afterBus], habandoned⟩

section
variable {s : State} {h : Handle}

theorem cosmetic_runsFrames (c : PanelCmd) (hlife : s.life = .ready h) :
    RunsFrames 1 s (cosmetic c s) := by
  rw [cosmetic, whenReady_of_ready hlife, busWrite_eq_sendAll]
  exact ⟨_, _, _, _, rfl, rfl⟩

theorem execDeinit_runsFrames (hlife : s.life = .ready h) : RunsFrames 1 s (execDeinit s) := by
  rw [execDeinit, whenReady_of_ready hlife, busWrite_eq_sendAll]
  exact ⟨_, _, _, _, rfl, rfl⟩

theorem execShow_runsFrames (hlife : s.life = .ready h) :
    RunsFrames (maxTransactions .showBuf s) s (execShow s) := by
  rw [execShow, whenReady_of_ready hlife, maxTransactions, hlife]
  exact ⟨_, _, _, _, showFrames_length h, rfl⟩

theorem execInit_runsFrames {width height : Byte} (a : Byte) (evcc : Bool) (hlife : s.life = .uninit)
    (hw : width ≠ 0) (hh : height ≠ 0)
    (hcap : byteVal width * ((byteVal height + 7) / 8) ≤ s.cfg.bufCap) :
    RunsFrames 15 s (execInit width height a evcc s) :=
  ⟨_, _, _, _, initFrames_length _ _ _ _, execInit_of_accepted a evcc hlife hw hh hcap⟩

end

end Sys2Proof.Machine

/-- Settles O10: an accepted command sends as many frames as R245 counts, and a reset at one of them ends
the sequence and the command with it. -/
theorem resetAbandonsRunningCommand : Obligations.ResetAbandonsRunningCommand := by
  intro i s k haccepted hk hok hreset
  have hframes : Sys2Proof.Machine.RunsFrames (Sys2Proof.Machine.maxTransactions i s) s
      (Sys2Proof.Machine.exec i s) := by
    obtain ⟨w, ht, a, e, rfl, hlife, hw, hh, hcap⟩ | ⟨hi, h, hlife⟩ := haccepted
    · exact Sys2Proof.Machine.execInit_runsFrames a e hlife hw hh hcap
    · obtain rfl | rfl | rfl | ⟨v, rfl⟩ | ⟨f, rfl⟩ | rfl := hi
      · exact Sys2Proof.Machine.execDeinit_runsFrames hlife
      · exact Sys2Proof.Machine.cosmetic_runsFrames _ hlife
      · exact Sys2Proof.Machine.cosmetic_runsFrames _ hlife
      · exact Sys2Proof.Machine.cosmetic_runsFrames _ hlife
      · exact Sys2Proof.Machine.cosmetic_runsFrames _ hlife
      · exact Sys2Proof.Machine.execShow_runsFrames hlife
  exact hframes.abandoned_of_reset hk hok hreset

namespace Sys2Proof.Machine

/-! ### The panel after a successful SHOW (R171, R219) -/

/-- The one response given is the one that the command completed with. -/
theorem State.completedAs.result_eq {s t : State} {r : Response} {res : Result}
    (h : s.completedAs (t.respond r) res) (ht : t.responses = s.responses) : r.result = res := by
  obtain ⟨v, hv⟩ := h
  rw [State.respond_responses, ht] at hv
  obtain rfl := List.singleton_inj.mp (List.append_cancel_left hv)
  rfl

/-- A SHOW that completed with `OK` has sent the frames of every page. -/
theorem ShowCompletes.eq_of_ok {s t : State} {h : Handle} (hshow : ShowCompletes s t)
    (hlife : s.life = .ready h) (hdone : s.completedAs t .ok) :
    t = (s.afterSent h.address (showFrames h)).respond ⟨.ok, none⟩ := by
  cases hshow with
  | uninit | failed => exact nomatch hdone.result_eq rfl
  | answered hlife' =>
    obtain rfl := Lifecycle.ready.inj (hlife.symm.trans hlife')
    rfl

/-- R219 (d), on a panel that is on. -/
theorem Panel.lit_of_on {d : Panel} {x y : Nat} {inv : Bool} {b : Byte} (hon : d.power = some true)
    (hinv : d.inverted = some inv) (hbyte : d.devByte (y / pageRows) x = some b) :
    d.lit x y = some (b.getLsbD (y % pageRows) != inv) := by
  rw [Panel.lit, hon, hinv, hbyte]

/-- R219 (d), on a panel that is off. -/
theorem Panel.lit_of_off {d : Panel} (hoff : d.power = some false) (x y : Nat) :
    d.lit x y = some false := by
  rw [Panel.lit, hoff]

end Sys2Proof.Machine

/-- Settles O43: a SHOW that returned `OK` has sent the frames of every page. -/
theorem panelHoldsBufferAfterShow : Obligations.PanelHoldsBufferAfterShow := by
  intro s t h hinv hlife hexec hdone p hp x hx
  obtain ⟨hw, -⟩ := Sys2Proof.Machine.State.inv_handle hinv hlife
  have hshow := Sys2Proof.Machine.ShowCompletes.of_exec hexec hdone
  rw [hshow.eq_of_ok hlife hdone]
  exact Sys2Proof.Machine.panelAfter_showFrames_devByte s.cfg.wire s.panel hw hp hx

/-- Settles O44: the panel's byte behind a screen pixel is the buffer's (R219), and its bit is the
pixel's (R52). -/
theorem litPictureAfterShow : Obligations.LitPictureAfterShow := by
  intro s t h hinv hlife hexec hdone x y hx hy
  obtain ⟨-, -, hpages, -⟩ := Sys2Proof.Machine.State.inv_handle hinv hlife
  have hpage : y / 8 < h.pages.toNat := by
    dsimp only [Sys2Proof.Machine.byteVal] at hpages
    omega
  have hbyte := panelHoldsBufferAfterShow s t h hinv hlife hexec hdone (y / 8) hpage x hx
  rw [Sys2Proof.Machine.Handle.pix_natCast
    (Sys2Proof.Machine.Handle.onScreen_natCast.mpr ⟨hx, hy⟩)]
  exact ⟨fun _ hon hinverted => Sys2Proof.Machine.Panel.lit_of_on hon hinverted hbyte,
    fun hoff => Sys2Proof.Machine.Panel.lit_of_off hoff x y⟩
